-- ==== Sys2Proof/Word.lean ====
section
/-! DEFINITION. The words of the VCB: every value is an unsigned integer of a stated width (spec 00_scope.md R7). -/

namespace Sys2Proof

/-- The only addressable unit: a byte is 8 bits (R7, 20_memory.md R40, R49). -/
abbrev Byte := BitVec 8

/-- A pixel index or a 4-bit channel (R5 `PIX_BITS`, 10_state.md R21). -/
abbrev Nibble := BitVec 4

/-- The number of a colour register, 5 bits: every value names one of the 32 (R21, 30_encoding.md R63). -/
abbrev RegNo := BitVec 5

end Sys2Proof
end

