-- ==== Sys2Proof/Config.lean ====
section
/-! DEFINITION. The implementation parameters of the VCB (spec 00_scope.md R5): the fixed sizes, and the two the
spec leaves to the instance, `PIX_OVF` and `MAP_OVF`. -/

namespace Sys2Proof

/-- `COLOR_BYTES`: encoded size of a colour (R5, 20_memory.md R43). -/
abbrev Config.colorBytes : Nat := 2

/-- `PAL_CAP`: the most colours a palette holds (R5, 10_state.md R25). -/
abbrev Config.palCap : Nat := 16

/-- `PAL_BYTES_MAX` = 2 * `PAL_CAP` (R5, 20_memory.md R44). -/
abbrev Config.palBytesMax : Nat := 32

/-- `TILE_BYTES`: packed tile size (R5, 20_memory.md R45). -/
abbrev Config.tileBytes : Nat := 32

/-- `TILE_PIX`: pixels of a tile, 8 rows of 8 (R5, 20_memory.md R46). -/
abbrev Config.tilePix : Nat := 64

/-- `NCOL`: the number of colour registers (R5, 10_state.md R21). -/
abbrev Config.ncol : Nat := 32

/-- `MAX_PAYLOAD`: the most payload bytes in one packet (R5, 30_encoding.md R61). -/
abbrev Config.maxPayload : Nat := 65535

/-- `PIX_OVF`: what TPK does with a pixel byte above 15 (R5, 42_tile.md R122). -/
inductive PixOvf
  | clamp
  | mask
deriving DecidableEq, Repr

/-- `MAP_OVF`: what MMK does with an over-wide index (R5, 43_mapping.md R142). -/
inductive MapOvf
  | truncate
  | fault
deriving DecidableEq, Repr

/-- The two parameters an instance fixes (R5, R12): open in the spec, so the model is for every value of both. -/
structure Params where
  pixOvf : PixOvf
  mapOvf : MapOvf
deriving DecidableEq, Repr

/-- The values "given here as the default" (R5): `PIX_OVF` = CLAMP, `MAP_OVF` = TRUNCATE. -/
def Params.default : Params where
  pixOvf := .clamp
  mapOvf := .truncate

end Sys2Proof
end

