-- ==== Sys2Proof/Syntax.lean ====
section
/-! DEFINITION. The commands of VCB-1 (spec 30_encoding.md R62, R64): one constructor per row of
spec/opcode_table.json, with the operands its format gives it and, where the format takes one, its payload. -/

namespace Sys2Proof

/-- What a command that takes a payload was sent with (20_memory.md R40): `none` is `P = 0`, the null input;
`some bytes` is `P = 1` with `LEN = bytes.length`, which may be 0. -/
abbrev Payload := Option (List Byte)

/-- The seventeen commands, in the table's order (R64). -/
inductive Instr
  /-- CQ, format Q (40_color.md R84). -/
  | cq (cd : RegNo) (r g b : Byte)
  /-- CDEC, format RB (R85). -/
  | cdec (cd : RegNo) (pay : Payload)
  /-- CDECX, format RXB (R86). -/
  | cdecx (cd : RegNo) (idx : BitVec 16) (pay : Payload)
  /-- CENC, format R (R87). -/
  | cenc (cs : RegNo)
  /-- PDEC.F, format B (41_palette.md R103). -/
  | pdecF (pay : Payload)
  /-- PDEC.V, format B (R104). -/
  | pdecV (pay : Payload)
  /-- PLD.F, format C (R105). -/
  | pldF (n : BitVec 6)
  /-- PLD.V, format C (R106). -/
  | pldV (n : BitVec 6)
  /-- PENC, format N (R107). -/
  | penc
  /-- TLD, format B (42_tile.md R124). -/
  | tld (pay : Payload)
  /-- TPK, format B (R125). -/
  | tpk (pay : Payload)
  /-- TUNPK, format N (R126). -/
  | tunpk
  /-- TST, format N (R127). -/
  | tst
  /-- TCLR, format N (R128). -/
  | tclr
  /-- MDEC, format XB (43_mapping.md R144). -/
  | mdec (off : BitVec 16) (pay : Payload)
  /-- MENC, format N (R145). -/
  | menc
  /-- MMK, format M (R146). -/
  | mmk (t : BitVec 16) (p : Byte) (vf hf pri : BitVec 1)
deriving DecidableEq, Repr

/-- The causes a command can be turned away for (60_exceptions.md R161). The first six are of the class
InvalidArgument, the last two of the class IllegalCommand (R160). -/
inductive Cause
  /-- a command that takes a payload was sent with `P = 0` -/
  | nullInput
  /-- the payload length or the collection size is not the one the command requires -/
  | length
  /-- a collection of more than 16 colours -/
  | capacity
  /-- a slot index or byte offset reaches beyond the payload -/
  | range
  /-- a source register holds no value -/
  | nullObject
  /-- an MMK operand is too wide, only when `MAP_OVF = FAULT` -/
  | overflow
  /-- `OPC` is not one of the seventeen defined -/
  | opcode
  /-- a must-be-zero bit is set, or `P` and `LEN` are inconsistent with the format -/
  | field
deriving DecidableEq, Repr

/-- The payload a command carries; a command that takes none has none (R62). -/
def Instr.payload : Instr → Payload
  | .cq _ _ _ _ => none
  | .cdec _ pay => pay
  | .cdecx _ _ pay => pay
  | .cenc _ => none
  | .pdecF pay => pay
  | .pdecV pay => pay
  | .pldF _ => none
  | .pldV _ => none
  | .penc => none
  | .tld pay => pay
  | .tpk pay => pay
  | .tunpk => none
  | .tst => none
  | .tclr => none
  | .mdec _ pay => pay
  | .menc => none
  | .mmk _ _ _ _ _ => none

end Sys2Proof
end

