-- ==== Sys2Proof/Machine/State.lean ====
section
/-! DEFINITION. The state of one VCB instance as plain data (spec 10_state.md R20), its value after reset (R35), and
the reasons for which the MODEL stops. A command never stops it: what the spec calls a fault is a response and a
record in STAT (60_exceptions.md R165), hence a next state. -/

namespace Sys2Proof.Machine

/-- A colour value `(R, G, B)` with the widths of R21; `R[0] = 0` is an invariant (R22), as is nothing of G and B. -/
structure Colour where
  r : Nibble
  g : Nibble
  b : Byte
deriving DecidableEq, Repr

/-- What PAL holds (R24): the colours in slot order. `cnt` is how many there are; slots above hold nothing. -/
structure Palette where
  ent : List Colour
deriving DecidableEq, Repr

/-- `cnt`, the number of colours held (R24). -/
def Palette.cnt (p : Palette) : Nat := p.ent.length

/-- What MAP holds (R27), every field with its width. -/
structure MapEntry where
  tile : BitVec 11
  pal : BitVec 2
  vf : BitVec 1
  hf : BitVec 1
  pri : BitVec 1
deriving DecidableEq, Repr

/-- A response packet (30_encoding.md R67): the 32-bit response word and the result bytes that follow it. -/
structure Response where
  word : BitVec 32
  res : List Byte
deriving DecidableEq, Repr

/-- What the host can do to the VCB (70_reset_and_hazards.md R184): send the next byte of a packet, or assert reset. -/
inductive HostMove
  | byte (b : Byte)
  | reset
deriving DecidableEq, Repr

/-- The state: the five pieces of R20, the instance's parameters (R5), and the two ends of the host interface. -/
structure State where
  /-- `C[0]` to `C[31]`; `none` is `V = 0`, no value (R21). -/
  col : Vector (Option Colour) 32
  /-- PAL; `none` is `PV = 0` (R24). -/
  pal : Option Palette
  /-- `TILE[0]` to `TILE[31]`, always a tile (R26). -/
  tile : Vector Byte 32
  /-- MAP; `none` is `MV = 0` (R27). -/
  mapE : Option MapEntry
  /-- STAT (R28). -/
  stat : BitVec 32
  /-- `PIX_OVF` and `MAP_OVF` of this instance (R5). DESIGN CHOICE, log entry 1: carried in State, written by nothing. -/
  params : Params
  /-- The host's moves not yet taken, next first (R31, R184). DESIGN CHOICE, log entry 2: the model's own field. -/
  inbox : List HostMove
  /-- The response packets issued so far, oldest first (R67, R185). DESIGN CHOICE, log entry 3: the model's own field. -/
  outbox : List Response
deriving DecidableEq, Repr

/-- `TILE` of 32 zero bytes, "the default-constructed state" (R35, 42_tile.md R128). -/
def blankTile : Vector Byte 32 := Vector.replicate 32 0#8

/-- The machine right after reset (R35): no register but TILE holds a value, STAT is zero. The parameters are the
defaults of R5 (log entry 1); the host has sent nothing and received nothing (log entries 2 and 3). -/
def State.reset : State where
  col := Vector.replicate 32 none
  pal := none
  tile := blankTile
  mapE := none
  stat := 0#32
  params := Params.default
  inbox := []
  outbox := []

/-- Why the model stops as stuck. -/
inductive Fault
  /-- Raised by `step` when the host's bytes end inside a packet: "the command never starts" (93_implementation_defined.md
  N4, treatment `stuck`). SAFE: the spec gives the VCB no step there. -/
  | packetCutShort
deriving DecidableEq, Repr

/-- Why the model gives no meaning. -/
inductive Refusal
  /-- Raised by an arm of `exec` whose instruction has no meaning yet; no arm does. SAFE: the model stops. -/
  | notModelled (mnemonic : String)
  /-- Raised by `step` when reset is asserted after some but not all bytes of a packet: "a model must not give it a
  meaning" (70_reset_and_hazards.md R180; 93_implementation_defined.md N2, treatment `refuse`). SAFE: the model stops. -/
  | resetInCommand
deriving DecidableEq, Repr

/-- The three outcomes of a step of this machine. -/
abbrev Outcome : Type := Host.Outcome State Fault Refusal

end Sys2Proof.Machine
end

