-- ==== Sys2Proof/Machine/Flags.lean ====
section
/-! DEFINITION. The VCB has no flags (spec 10_state.md R32). What a command's outcome is recorded in is its status and
cause codes (60_exceptions.md R160, R161), the response word (30_encoding.md R67) and STAT (10_state.md R28). -/

namespace Sys2Proof.Machine

/-- `ST` of the OK response (R160). -/
def statusOk : Byte := 0x00

/-- `ST`: the class of a cause, InvalidArgument or IllegalCommand (R160, R161). -/
def causeStatus : Cause → Byte
  | .nullInput => 0x01
  | .length => 0x01
  | .capacity => 0x01
  | .range => 0x01
  | .nullObject => 0x01
  | .overflow => 0x01
  | .opcode => 0x02
  | .field => 0x02

/-- `CA`: the code of a cause within its class (R161). -/
def causeCode : Cause → Byte
  | .nullInput => 0x01
  | .length => 0x02
  | .capacity => 0x03
  | .range => 0x04
  | .nullObject => 0x05
  | .overflow => 0x06
  | .opcode => 0x01
  | .field => 0x02

/-- The response word `ST CA RLEN` (R67). -/
def responseWord (st ca : Byte) (rlen : BitVec 16) : BitVec 32 := st ++ ca ++ rlen

/-- `ST` of a response word, bits 31:24 (R67). -/
def wordStatus (w : BitVec 32) : Byte := w.extractLsb' 24 8

/-- `CA` of a response word, bits 23:16 (R67). -/
def wordCause (w : BitVec 32) : Byte := w.extractLsb' 16 8

/-- `RLEN` of a response word, bits 15:0 (R67). -/
def wordRlen (w : BitVec 32) : BitVec 16 := w.extractLsb' 0 16

/-- The OK response with its result bytes; `RLEN` is how many there are (R67). -/
def okResponse (res : List Byte) : Response where
  word := responseWord statusOk 0x00 (BitVec.ofNat 16 res.length)
  res := res

/-- The fault response: `ST`, `CA`, and no result bytes (R67, R165 c). -/
def faultResponse (c : Cause) : Response where
  word := responseWord (causeStatus c) (causeCode c) 0
  res := []

/-- A response packet as it is sent: the word most significant byte first, then the result bytes in order (R67). -/
def responseBytes (r : Response) : List Byte :=
  [r.word.extractLsb' 24 8, r.word.extractLsb' 16 8, r.word.extractLsb' 8 8, r.word.extractLsb' 0 8] ++ r.res

/-- `STAT.FLT`, bit 31 (R28). -/
def statFlt (w : BitVec 32) : Bool := w.getLsbD 31

/-- `STAT[30:16]`, reserved (R28). -/
def statReserved (w : BitVec 32) : BitVec 15 := w.extractLsb' 16 15

/-- `STAT.LST`, bits 15:8 (R28). -/
def statLst (w : BitVec 32) : Byte := w.extractLsb' 8 8

/-- `STAT.LCA`, bits 7:0 (R28). -/
def statLca (w : BitVec 32) : Byte := w.extractLsb' 0 8

/-- What a fault leaves in STAT: `FLT <- 1`, `LST <- ST`, `LCA <- CA`, the reserved bits hardwired zero (R28, R165 b). -/
def faultStat (c : Cause) : BitVec 32 := 1#1 ++ 0#15 ++ causeStatus c ++ causeCode c

end Sys2Proof.Machine
end

