-- ==== Sys2Proof/Machine/Ops.lean ====
section
/-! DEFINITION. The named operations over the registers, the two ways a command ends (spec 00_scope.md R8: `Respond`
and `raise`), and the reset input (70_reset_and_hazards.md R180). The VCB has no memory (10_state.md R20), so there is
no memory operation. A fault saves nothing but STAT, and there is no return from one: the next command simply runs
(60_exceptions.md R165, R166). -/

namespace Sys2Proof.Machine

/-- `x[i]`: read `C[i]`, a colour value or no value (R8, 10_state.md R23). -/
def readColour (s : State) (i : RegNo) : Option Colour := s.col[i.toNat]

/-- `x[i] <- v`: write `C[i]` whole and set its `V` (R8, 10_state.md R23). -/
def writeColour (i : RegNo) (v : Colour) (s : State) : State :=
  { s with col := s.col.set i.toNat (some v) }

/-- `PAL <- (PV = 1, p)` (R8, 10_state.md R25). -/
def writePal (p : Palette) (s : State) : State := { s with pal := some p }

/-- `TILE <- t` (R8, 10_state.md R26). -/
def writeTile (t : Vector Byte 32) (s : State) : State := { s with tile := t }

/-- `MAP <- (MV = 1, e)` (R8, 10_state.md R27). -/
def writeMap (e : MapEntry) (s : State) : State := { s with mapE := some e }

/-- A response is issued: the host receives it after all that came before (R53 c, 70_reset_and_hazards.md R185). -/
def issue (r : Response) (s : State) : State := { s with outbox := s.outbox ++ [r] }

/-- `Respond(res)`: the command ends with status OK and these result bytes; STAT stays (R8, 10_state.md R28). -/
def respond (res : List Byte) (s : State) : Outcome := .next (issue (okResponse res) s)

/-- `raise`, the fault response (60_exceptions.md R165), the ONE operation every fault of every command goes through:
no object register is written, STAT records the class and cause, the response carries them and no result bytes. -/
def raiseFault (c : Cause) (s : State) : Outcome :=
  .next (issue (faultResponse c) { s with stat := faultStat c })

/-- The reset input, asserted between commands (70_reset_and_hazards.md R180): every piece of state at the value of
10_state.md R35. The instance's parameters, the host's coming moves and the responses it already has are not the
VCB's state (00_scope.md R11) and stay. -/
def resetInput (s : State) : State :=
  { State.reset with params := s.params, inbox := s.inbox, outbox := s.outbox }

end Sys2Proof.Machine
end

