-- ==== Sys2Proof/Machine/Operands.lean ====
section
/-! DEFINITION. Every way a command gets its operands (spec 30_encoding.md R72): the payload whole, by scaled index and
by byte offset; a collection of colour registers; and the two normalisers an instance parameter settles. -/

namespace Sys2Proof.Machine

/-- The first check of every command that takes a payload: `P = 0` raises NULL_INPUT, else `k` runs on the bytes
(60_exceptions.md R161, R162). -/
def withPayload (pay : Payload) (s : State) (k : List Byte → Outcome) : Outcome :=
  match pay with
  | none => raiseFault .nullInput s
  | some bytes => k bytes

/-- `Pay[k], Pay[k + 1]`, none where either byte lies beyond the payload: the bound check of the two indexed commands,
in unbounded integers (20_memory.md R52, 00_scope.md R7). -/
def pairAt (bytes : List Byte) (k : Nat) : Option (Byte × Byte) :=
  match bytes[k]?, bytes[k + 1]? with
  | some b0, some b1 => some (b0, b1)
  | _, _ => none

/-- The whole payload, when it has exactly `n` bytes (20_memory.md R52, 30_encoding.md R72). -/
def exactly (n : Nat) (bytes : List Byte) : Option (Vector Byte n) :=
  if h : bytes.length = n then some ⟨bytes.toArray, by simpa using h⟩ else none

/-- A list of optional values as an optional list: none as soon as one is missing ("no entry may be null",
10_state.md R25). -/
def allPresent {α : Type} : List (Option α) → Option (List α)
  | [] => some []
  | none :: _ => none
  | some a :: rest => (allPresent rest).map (a :: ·)

/-- The collection `C[0]` to `C[n - 1]` of PLD, none where one of them holds no value (41_palette.md R105, R106). -/
def collection (n : Nat) (s : State) : Option (List Colour) := allPresent (s.col.toList.take n)

/-- `pixnorm` (42_tile.md R122): a pixel byte as a nibble. Up to 15 it is kept; above, `PIX_OVF` says. -/
def pixnorm (ovf : PixOvf) (v : Byte) : Nibble :=
  if v ≤ 15#8 then v.setWidth 4
  else
    match ovf with
    | .clamp => 15#4
    | .mask => (v &&& 0x0F#8).setWidth 4

/-- `mapnorm` (43_mapping.md R142): MMK's wide operands as the fields of an entry. Operands that fit are kept; for the
others `MAP_OVF` says, and none is the OVERFLOW fault. -/
def mapnorm (ovf : MapOvf) (t : BitVec 16) (p : Byte) : Option (BitVec 11 × BitVec 2) :=
  if t ≤ 2047#16 ∧ p ≤ 3#8 then some (t.setWidth 11, p.setWidth 2)
  else
    match ovf with
    | .truncate => some ((t &&& 0x7FF#16).setWidth 11, (p &&& 0x03#8).setWidth 2)
    | .fault => none

end Sys2Proof.Machine
end

