-- ==== Sys2Proof/Machine/Mapping.lean ====
section
/-! DEFINITION. The mapping-entry family, MappingEntryCodec (spec 43_mapping.md): its two functions and its three
commands. -/

namespace Sys2Proof.Machine

/-- The mapping-entry decoder `mapdec` (R140, 20_memory.md R47): three bits of byte 0 and all of byte 1 make the tile
index, by shift and OR. -/
def mapdec (byte0 byte1 : Byte) : MapEntry where
  tile := ((byte0 &&& 0x07#8).setWidth 11 <<< 8) ||| byte1.setWidth 11
  pal := byte0.extractLsb' 5 2
  vf := byte0.extractLsb' 4 1
  hf := byte0.extractLsb' 3 1
  pri := byte0.extractLsb' 7 1

/-- The mapping-entry encoder `mapenc` (R141): shift and OR, never addition. -/
def mapenc (e : MapEntry) : Byte × Byte :=
  ((e.pri.setWidth 8 <<< 7) ||| (e.pal.setWidth 8 <<< 5) ||| (e.vf.setWidth 8 <<< 4) ||| (e.hf.setWidth 8 <<< 3)
      ||| (e.tile.extractLsb' 8 3).setWidth 8,
   e.tile.setWidth 8)

/-- The two bytes of a mapping entry, in buffer order (20_memory.md R47). -/
def mapBytes (e : MapEntry) : List Byte := [(mapenc e).1, (mapenc e).2]

/-- MDEC (R144): the entry's bytes are at `off` and `off + 1`. -/
def execMdec (off : BitVec 16) (pay : Payload) (s : State) : Outcome :=
  withPayload pay s fun bytes =>
    match pairAt bytes off.toNat with
    | some (byte0, byte1) => respond [] (writeMap (mapdec byte0 byte1) s)
    | none => raiseFault .range s

/-- MENC (R145). -/
def execMenc (s : State) : Outcome :=
  match s.mapE with
  | some e => respond (mapBytes e) s
  | none => raiseFault .nullObject s

/-- MMK (R146): the fields as `mapnorm` leaves them. -/
def execMmk (t : BitVec 16) (p : Byte) (vf hf pri : BitVec 1) (s : State) : Outcome :=
  match mapnorm s.params.mapOvf t p with
  | some (tile, pal) => respond [] (writeMap ⟨tile, pal, vf, hf, pri⟩ s)
  | none => raiseFault .overflow s

end Sys2Proof.Machine
end

