-- ==== Sys2Proof/Machine/Colour.lean ====
section
/-! DEFINITION. The colour family, ColorCodec (spec 40_color.md): its three functions and its four commands. -/

namespace Sys2Proof.Machine

/-- The channel quantiser `q` (R80), by the contract's own formula: floor-divide by 16, then mask with `0b1110`. -/
def quantise (v : Byte) : Nibble := ((v / 16#8) &&& 0b1110#8).setWidth 4

/-- The colour-word decoder `coldec` (R81, 20_memory.md R43): only R is masked (90_conflicts.md C3). -/
def coldec (byte0 byte1 : Byte) : Colour where
  r := (byte1 &&& 0b1110#8).setWidth 4
  g := (byte1 >>> 4).setWidth 4
  b := byte0

/-- The colour-word encoder `colenc` (R82, 20_memory.md R43): `[B, (G << 4) | R]`. -/
def colenc (c : Colour) : Byte × Byte := (c.b, (c.g.setWidth 8 <<< 4) ||| c.r.setWidth 8)

/-- The two bytes of a colour word, in buffer order (20_memory.md R43). -/
def colourBytes (c : Colour) : List Byte := [(colenc c).1, (colenc c).2]

/-- CQ (R84). -/
def execCq (cd : RegNo) (r g b : Byte) (s : State) : Outcome :=
  respond [] (writeColour cd ⟨quantise r, quantise g, (quantise b).setWidth 8⟩ s)

/-- CDEC (R85): exactly two bytes. -/
def execCdec (cd : RegNo) (pay : Payload) (s : State) : Outcome :=
  withPayload pay s fun bytes =>
    match bytes with
    | [byte0, byte1] => respond [] (writeColour cd (coldec byte0 byte1) s)
    | _ => raiseFault .length s

/-- CDECX (R86): the slot's bytes are at `2 * idx` and `2 * idx + 1`. -/
def execCdecx (cd : RegNo) (idx : BitVec 16) (pay : Payload) (s : State) : Outcome :=
  withPayload pay s fun bytes =>
    match pairAt bytes (2 * idx.toNat) with
    | some (byte0, byte1) => respond [] (writeColour cd (coldec byte0 byte1) s)
    | none => raiseFault .range s

/-- CENC (R87). -/
def execCenc (cs : RegNo) (s : State) : Outcome :=
  match readColour s cs with
  | some c => respond (colourBytes c) s
  | none => raiseFault .nullObject s

end Sys2Proof.Machine
end

