-- ==== Sys2Proof/Machine/Palette.lean ====
section
/-! DEFINITION. The palette family, PaletteCodec (spec 41_palette.md): its two functions and its five commands. The
fixed-size and variable-size modes are two commands each (30_encoding.md R64). -/

namespace Sys2Proof.Machine

/-- The colours of a palette buffer, one per 2-byte slot in order (R100, 20_memory.md R44). -/
def slotColours : List Byte → List Colour
  | byte0 :: byte1 :: rest => coldec byte0 byte1 :: slotColours rest
  | _ => []

/-- The palette decoder `paldec` (R100). -/
def paldec (bytes : List Byte) : Palette where
  ent := slotColours bytes

/-- The palette encoder `palenc` (R101): every colour's two bytes in slot order. -/
def palenc (p : Palette) : List Byte := p.ent.flatMap colourBytes

/-- PDEC.F (R103): exactly 32 bytes. -/
def execPdecF (pay : Payload) (s : State) : Outcome :=
  withPayload pay s fun bytes =>
    if bytes.length = Config.palBytesMax then respond [] (writePal (paldec bytes) s)
    else raiseFault .length s

/-- PDEC.V (R104): an even number of bytes, at most 32. -/
def execPdecV (pay : Payload) (s : State) : Outcome :=
  withPayload pay s fun bytes =>
    if bytes.length % 2 = 1 ∨ bytes.length > Config.palBytesMax then raiseFault .length s
    else respond [] (writePal (paldec bytes) s)

/-- The last check of both PLD commands and their effect: the first `n` colour registers become the palette, by value
(R105, R106, 10_state.md R29). -/
def loadCollection (n : Nat) (s : State) : Outcome :=
  match collection n s with
  | some colours => respond [] (writePal ⟨colours⟩ s)
  | none => raiseFault .nullObject s

/-- PLD.F (R105): the count is checked before any register is read. -/
def execPldF (n : BitVec 6) (s : State) : Outcome :=
  if n.toNat > Config.palCap then raiseFault .capacity s
  else if n.toNat ≠ Config.palCap then raiseFault .length s
  else loadCollection Config.palCap s

/-- PLD.V (R106). -/
def execPldV (n : BitVec 6) (s : State) : Outcome :=
  if n.toNat > Config.palCap then raiseFault .capacity s
  else loadCollection n.toNat s

/-- PENC (R107). -/
def execPenc (s : State) : Outcome :=
  match s.pal with
  | some p => respond (palenc p) s
  | none => raiseFault .nullObject s

end Sys2Proof.Machine
end

