-- ==== Sys2Proof/Machine/Tile.lean ====
section
/-! DEFINITION. The tile family, TileCodec (spec 42_tile.md): its two functions and its five commands. -/

namespace Sys2Proof.Machine

/-- The nibble unpacker `tile_unpack` (R120): byte `k` gives pixel `2k` from its high nibble and pixel `2k + 1` from
its low nibble (20_memory.md R45, R46). -/
def tileUnpack (t : Vector Byte 32) : Vector Byte 64 :=
  Vector.ofFn fun p : Fin 64 =>
    if p.val % 2 = 0 then t[p.val / 2] >>> 4 else t[p.val / 2] &&& 0x0F#8

/-- The nibble packer `tile_pack` (R121): the even-numbered pixel of a pair is the high nibble. -/
def tilePack (ovf : PixOvf) (px : Vector Byte 64) : Vector Byte 32 :=
  Vector.ofFn fun k : Fin 32 =>
    ((pixnorm ovf px[2 * k.val]).setWidth 8 <<< 4) ||| (pixnorm ovf px[2 * k.val + 1]).setWidth 8

/-- TLD (R124): 32 bytes, copied byte for byte. -/
def execTld (pay : Payload) (s : State) : Outcome :=
  withPayload pay s fun bytes =>
    match exactly 32 bytes with
    | some t => respond [] (writeTile t s)
    | none => raiseFault .length s

/-- TPK (R125): 64 pixel bytes. -/
def execTpk (pay : Payload) (s : State) : Outcome :=
  withPayload pay s fun bytes =>
    match exactly 64 bytes with
    | some px => respond [] (writeTile (tilePack s.params.pixOvf px) s)
    | none => raiseFault .length s

/-- TUNPK (R126). -/
def execTunpk (s : State) : Outcome := respond (tileUnpack s.tile).toList s

/-- TST (R127). -/
def execTst (s : State) : Outcome := respond s.tile.toList s

/-- TCLR (R128). -/
def execTclr (s : State) : Outcome := respond [] (writeTile blankTile s)

end Sys2Proof.Machine
end

