-- ==== Sys2Proof/Machine/Dispatch.lean ====
section
/-! DEFINITION. Which meaning each command has: one arm per constructor of `Instr`, in the opcode table's order
(spec 30_encoding.md R64). -/

namespace Sys2Proof.Machine

def exec (i : Instr) (s : State) : Host.Outcome State Fault Refusal :=
  match i with
  -- colour family, 40_color.md
  | .cq cd r g b => Sys2Proof.Machine.execCq cd r g b s
  | .cdec cd pay => Sys2Proof.Machine.execCdec cd pay s
  | .cdecx cd idx pay => Sys2Proof.Machine.execCdecx cd idx pay s
  | .cenc cs => Sys2Proof.Machine.execCenc cs s
  -- palette family, 41_palette.md
  | .pdecF pay => Sys2Proof.Machine.execPdecF pay s
  | .pdecV pay => Sys2Proof.Machine.execPdecV pay s
  | .pldF n => Sys2Proof.Machine.execPldF n s
  | .pldV n => Sys2Proof.Machine.execPldV n s
  | .penc => Sys2Proof.Machine.execPenc s
  -- tile family, 42_tile.md
  | .tld pay => Sys2Proof.Machine.execTld pay s
  | .tpk pay => Sys2Proof.Machine.execTpk pay s
  | .tunpk => Sys2Proof.Machine.execTunpk s
  | .tst => Sys2Proof.Machine.execTst s
  | .tclr => Sys2Proof.Machine.execTclr s
  -- mapping family, 43_mapping.md
  | .mdec off pay => Sys2Proof.Machine.execMdec off pay s
  | .menc => Sys2Proof.Machine.execMenc s
  | .mmk t p vf hf pri => Sys2Proof.Machine.execMmk t p vf hf pri s

end Sys2Proof.Machine
end

