-- ==== Sys2Proof/Decode.lean ====
section
/-! DEFINITION. The command packet as bytes (spec 30_encoding.md R60 to R65): the decoder, total on any bytes and
rejecting by cause, and after it the encoder, both from the tables of R61, R62 and R64. -/

namespace Sys2Proof

/-! ## Header fields (R61) -/

/-- `OPC`, bits 63:56. -/
def opcOf (h : BitVec 64) : BitVec 8 := h.extractLsb' 56 8

/-- `P`, bit 55: a payload is present. -/
def pOf (h : BitVec 64) : Bool := h.getLsbD 55

/-- `LEN`, bits 47:32: the payload length in bytes. -/
def lenOf (h : BitVec 64) : BitVec 16 := h.extractLsb' 32 16

/-! ## Operand fields (R62, R63): each is taken from `ARG` as it stands -/

/-- `ARG[28:24]`: `cd` or `cs` of the formats R, Q, RB and RXB. -/
def argReg (h : BitVec 64) : RegNo := h.extractLsb' 24 5

/-- `ARG[23:16]`: `r` of format Q, `p` of format M. -/
def argByte2 (h : BitVec 64) : Byte := h.extractLsb' 16 8

/-- `ARG[15:8]`: `g` of format Q. -/
def argByte1 (h : BitVec 64) : Byte := h.extractLsb' 8 8

/-- `ARG[7:0]`: `b` of format Q. -/
def argByte0 (h : BitVec 64) : Byte := h.extractLsb' 0 8

/-- `ARG[15:0]`: `idx` of RXB, `off` of XB, `t` of M. -/
def argHalf (h : BitVec 64) : BitVec 16 := h.extractLsb' 0 16

/-- `ARG[5:0]`: `n` of format C. -/
def argCount (h : BitVec 64) : BitVec 6 := h.extractLsb' 0 6

/-- `ARG[24]`: `vf` of format M. -/
def argVf (h : BitVec 64) : BitVec 1 := h.extractLsb' 24 1

/-- `ARG[25]`: `hf` of format M. -/
def argHf (h : BitVec 64) : BitVec 1 := h.extractLsb' 25 1

/-- `ARG[26]`: `pri` of format M. -/
def argPri (h : BitVec 64) : BitVec 1 := h.extractLsb' 26 1

/-! ## The opcode map (R64) -/

/-- One row of R64: the opcode, the value and mask of the fixed header bits, and the command a header with those bits
stands for, given the payload it was sent with. -/
structure Row where
  opc : BitVec 8
  fixed : BitVec 64
  mask : BitVec 64
  build : BitVec 64 → Payload → Instr

/-- The rows of the colour family (R64). -/
def colourRows : List Row :=
  [ { opc := 0x10, fixed := 0x1000000000000000, mask := 0xFFFFFFFFE0000000
      build := fun h _ => .cq (argReg h) (argByte2 h) (argByte1 h) (argByte0 h) },
    { opc := 0x11, fixed := 0x1100000000000000, mask := 0xFF7F0000E0FFFFFF
      build := fun h pay => .cdec (argReg h) pay },
    { opc := 0x12, fixed := 0x1200000000000000, mask := 0xFF7F0000E0FF0000
      build := fun h pay => .cdecx (argReg h) (argHalf h) pay },
    { opc := 0x13, fixed := 0x1300000000000000, mask := 0xFFFFFFFFE0FFFFFF
      build := fun h _ => .cenc (argReg h) } ]

/-- The rows of the palette family (R64). -/
def paletteRows : List Row :=
  [ { opc := 0x20, fixed := 0x2000000000000000, mask := 0xFF7F0000FFFFFFFF
      build := fun _ pay => .pdecF pay },
    { opc := 0x21, fixed := 0x2100000000000000, mask := 0xFF7F0000FFFFFFFF
      build := fun _ pay => .pdecV pay },
    { opc := 0x22, fixed := 0x2200000000000000, mask := 0xFFFFFFFFFFFFFFC0
      build := fun h _ => .pldF (argCount h) },
    { opc := 0x23, fixed := 0x2300000000000000, mask := 0xFFFFFFFFFFFFFFC0
      build := fun h _ => .pldV (argCount h) },
    { opc := 0x24, fixed := 0x2400000000000000, mask := 0xFFFFFFFFFFFFFFFF
      build := fun _ _ => .penc } ]

/-- The rows of the tile family (R64). -/
def tileRows : List Row :=
  [ { opc := 0x30, fixed := 0x3000000000000000, mask := 0xFF7F0000FFFFFFFF
      build := fun _ pay => .tld pay },
    { opc := 0x31, fixed := 0x3100000000000000, mask := 0xFF7F0000FFFFFFFF
      build := fun _ pay => .tpk pay },
    { opc := 0x32, fixed := 0x3200000000000000, mask := 0xFFFFFFFFFFFFFFFF
      build := fun _ _ => .tunpk },
    { opc := 0x33, fixed := 0x3300000000000000, mask := 0xFFFFFFFFFFFFFFFF
      build := fun _ _ => .tst },
    { opc := 0x34, fixed := 0x3400000000000000, mask := 0xFFFFFFFFFFFFFFFF
      build := fun _ _ => .tclr } ]

/-- The rows of the mapping family (R64). -/
def mappingRows : List Row :=
  [ { opc := 0x40, fixed := 0x4000000000000000, mask := 0xFF7F0000FFFF0000
      build := fun h pay => .mdec (argHalf h) pay },
    { opc := 0x41, fixed := 0x4100000000000000, mask := 0xFFFFFFFFFFFFFFFF
      build := fun _ _ => .menc },
    { opc := 0x42, fixed := 0x4200000000000000, mask := 0xFFFFFFFFF8000000
      build := fun h _ => .mmk (argHalf h) (argByte2 h) (argVf h) (argHf h) (argPri h) } ]

/-- The seventeen rows of R64, in the table's order. -/
def rows : List Row := colourRows ++ paletteRows ++ tileRows ++ mappingRows

/-! ## The decoder -/

/-- R65, step by step, on a header and the `LEN` bytes that follow it: (1) an undefined `OPC`, (2) a wrong fixed bit,
(3) `P = 0` with `LEN` not 0, (4) otherwise the command. The payload is the command's input only when `P = 1`. -/
def decodeHeader (h : BitVec 64) (pay : List Byte) : Except Cause Instr :=
  match rows.find? (fun row => row.opc == opcOf h) with
  | none => .error .opcode
  | some row =>
    if h &&& row.mask != row.fixed then .error .field
    else if !pOf h && lenOf h != 0 then .error .field
    else .ok (row.build h (if pOf h then some pay else none))

/-- What the bytes at the front of the stream are. -/
inductive Decoded
  /-- a legal packet, and the bytes after it -/
  | instr (i : Instr) (rest : List Byte)
  /-- a packet R65 rejects, by its cause, and the bytes after it: the whole packet is consumed all the same (R60) -/
  | illegal (c : Cause) (rest : List Byte)
  /-- fewer bytes than the packet has -/
  | short
deriving DecidableEq, Repr

/-- The header from its eight bytes, most significant byte first (R60). -/
def joinHeader (b7 b6 b5 b4 b3 b2 b1 b0 : Byte) : BitVec 64 :=
  b7 ++ b6 ++ b5 ++ b4 ++ b3 ++ b2 ++ b1 ++ b0

/-- The packet once its header is known: `LEN` payload bytes follow, whatever the opcode (R60). -/
def decodeBody (h : BitVec 64) (rest : List Byte) : Decoded :=
  if rest.length < (lenOf h).toNat then .short
  else
    match decodeHeader h (rest.take (lenOf h).toNat) with
    | .ok i => .instr i (rest.drop (lenOf h).toNat)
    | .error c => .illegal c (rest.drop (lenOf h).toNat)

/-- The packet at the front of a list of bytes: `8 + LEN` bytes (R60). -/
def decode : List Byte → Decoded
  | b7 :: b6 :: b5 :: b4 :: b3 :: b2 :: b1 :: b0 :: rest =>
    decodeBody (joinHeader b7 b6 b5 b4 b3 b2 b1 b0) rest
  | _ => .short

/-! ## The encoder -/

/-- A header from its fields, `RSV` zero (R61). -/
def mkHeader (opc : BitVec 8) (p : Bool) (len : BitVec 16) (arg : BitVec 32) : BitVec 64 :=
  opc ++ BitVec.ofBool p ++ 0#7 ++ len ++ arg

/-- The `LEN` field of a payload; 0 where there is none (R65 step 3). -/
def payLen (pay : Payload) : BitVec 16 := BitVec.ofNat 16 (pay.getD []).length

/-- `ARG` of the formats R and RB. -/
def argOfReg (cd : RegNo) : BitVec 32 := 0#3 ++ cd ++ 0#24

/-- `ARG` of format Q. -/
def argOfRgb (cd : RegNo) (r g b : Byte) : BitVec 32 := 0#3 ++ cd ++ r ++ g ++ b

/-- `ARG` of format C. -/
def argOfCount (n : BitVec 6) : BitVec 32 := 0#26 ++ n

/-- `ARG` of format M. -/
def argOfMap (t : BitVec 16) (p : Byte) (vf hf pri : BitVec 1) : BitVec 32 :=
  0#5 ++ pri ++ hf ++ vf ++ p ++ t

/-- `ARG` of format RXB. -/
def argOfRegHalf (cd : RegNo) (idx : BitVec 16) : BitVec 32 := 0#3 ++ cd ++ 0#8 ++ idx

/-- `ARG` of format XB. -/
def argOfHalf (off : BitVec 16) : BitVec 32 := 0#16 ++ off

/-- A header of a format that takes no payload: `P = 0`, `LEN = 0` (R62). -/
def plainHeader (opc : BitVec 8) (arg : BitVec 32) : BitVec 64 := mkHeader opc false 0 arg

/-- A header of a format that takes a payload (R62). -/
def payHeader (opc : BitVec 8) (pay : Payload) (arg : BitVec 32) : BitVec 64 :=
  mkHeader opc pay.isSome (payLen pay) arg

/-- The header of a command (R62, R64). -/
def headerFor : Instr → BitVec 64
  | .cq cd r g b => plainHeader 0x10 (argOfRgb cd r g b)
  | .cdec cd pay => payHeader 0x11 pay (argOfReg cd)
  | .cdecx cd idx pay => payHeader 0x12 pay (argOfRegHalf cd idx)
  | .cenc cs => plainHeader 0x13 (argOfReg cs)
  | .pdecF pay => payHeader 0x20 pay 0
  | .pdecV pay => payHeader 0x21 pay 0
  | .pldF n => plainHeader 0x22 (argOfCount n)
  | .pldV n => plainHeader 0x23 (argOfCount n)
  | .penc => plainHeader 0x24 0
  | .tld pay => payHeader 0x30 pay 0
  | .tpk pay => payHeader 0x31 pay 0
  | .tunpk => plainHeader 0x32 0
  | .tst => plainHeader 0x33 0
  | .tclr => plainHeader 0x34 0
  | .mdec off pay => payHeader 0x40 pay (argOfHalf off)
  | .menc => plainHeader 0x41 0
  | .mmk t p vf hf pri => plainHeader 0x42 (argOfMap t p vf hf pri)

/-- The eight bytes of a header, most significant byte first (R60). -/
def headerBytes (h : BitVec 64) : List Byte :=
  [h.extractLsb' 56 8, h.extractLsb' 48 8, h.extractLsb' 40 8, h.extractLsb' 32 8,
   h.extractLsb' 24 8, h.extractLsb' 16 8, h.extractLsb' 8 8, h.extractLsb' 0 8]

/-- The packet of a command: its header, then its payload bytes (R60). -/
def encode (i : Instr) : List Byte := headerBytes (headerFor i) ++ i.payload.getD []

/-! ## The opcode table's own numbering of an instruction's bits -/

/-- The packet whose bits are `w`, numbered as spec/opcode_table.json numbers them: the table's word is the 64-bit
header (R61, sent most significant byte first, R60), and payload byte `k` counts on from it at bit `64 + 8 * k`. Bits
at and above `nbits` are 0. -/
def tableBytes (nbits w : Nat) : List Byte :=
  let v := w % 2 ^ nbits
  let h := BitVec.ofNat 64 v
  headerBytes h ++ (List.range (lenOf h).toNat).map (fun k => BitVec.ofNat 8 (v >>> (64 + 8 * k)))

/-- The command the decoder reads from that packet. -/
def decodeTableWord (nbits w : Nat) : Option Instr :=
  match decode (tableBytes nbits w) with
  | .instr i _ => some i
  | .illegal _ _ => none
  | .short => none

end Sys2Proof
end

