-- ==== Sys2Proof/Machine/Fetch.lean ====
section
/-! DEFINITION. What the host presents next (spec 10_state.md R31: the VCB fetches no instructions; 30_encoding.md R60:
packets follow one another in the stream, each consumed whole). -/

namespace Sys2Proof.Machine

/-- The bytes at the front of the host's moves, and the moves from the first reset on. -/
def splitBytes : List HostMove → List Byte × List HostMove
  | [] => ([], [])
  | .reset :: ms => ([], .reset :: ms)
  | .byte b :: ms => (b :: (splitBytes ms).1, (splitBytes ms).2)

/-- The moves that send these bytes. -/
def sendBytes (bytes : List Byte) : List HostMove := bytes.map HostMove.byte

/-- What the host's moves ask of the VCB next, and the moves that remain. -/
inductive Fetched
  /-- nothing: the VCB is idle (60_exceptions.md R171) -/
  | idle
  /-- reset, between commands (70_reset_and_hazards.md R180) -/
  | reset (rest : List HostMove)
  /-- a legal packet (30_encoding.md R65 step 4) -/
  | command (i : Instr) (rest : List HostMove)
  /-- a packet that encodes no command (R65 steps 1 to 3) -/
  | illegal (c : Cause) (rest : List HostMove)
  /-- the moves end inside a packet (93_implementation_defined.md N4) -/
  | cutShort
  /-- reset inside a packet (93_implementation_defined.md N2) -/
  | resetInside
deriving DecidableEq, Repr

/-- A packet that begins with these bytes, `after` being the moves from the first reset on. -/
def fetchPacket (bytes : List Byte) (after : List HostMove) : Fetched :=
  match decode bytes with
  | .instr i rest => .command i (sendBytes rest ++ after)
  | .illegal c rest => .illegal c (sendBytes rest ++ after)
  | .short =>
    match after with
    | [] => .cutShort
    | _ :: _ => .resetInside

/-- The next thing the host's moves ask for. -/
def fetch (moves : List HostMove) : Fetched :=
  match moves with
  | [] => .idle
  | .reset :: rest => .reset rest
  | .byte _ :: _ => fetchPacket (splitBytes moves).1 (splitBytes moves).2

end Sys2Proof.Machine
end

