-- ==== Sys2Proof/Machine/Step.lean ====
section
/-! DEFINITION. One step: one whole command packet, legal or not (spec 00_scope.md R10, 20_memory.md R53), or the reset
input, or nothing where the host asks for nothing. -/

namespace Sys2Proof.Machine

/-- The host's moves that remain to be taken. -/
def withInbox (rest : List HostMove) (s : State) : State := { s with inbox := rest }

/-- One step of the VCB. -/
def step (s : State) : Host.Outcome State Fault Refusal :=
  match fetch s.inbox with
  | .idle => .next s
  | .reset rest => .next (resetInput (withInbox rest s))
  | .command i rest => exec i (withInbox rest s)
  | .illegal c rest => raiseFault c (withInbox rest s)
  | .cutShort => .fault .packetCutShort
  | .resetInside => .refused .resetInCommand

/-- `s` with the packet whose bits are `w`, numbered as the opcode table numbers them, as the next one the host sends:
in front of its other moves. -/
def State.withFetchWord (s : State) (nbits w : Nat) : State :=
  { s with inbox := sendBytes (tableBytes nbits w) ++ s.inbox }

end Sys2Proof.Machine
end

