-- ==== Sys2Proof/Machine/Asm.lean ====
section
/-! DEFINITION. The spec's assembler syntax (30_encoding.md R69) and pseudo-instructions (R70). An assembled line is a
list of commands, which `encode` turns into packets. No command's meaning depends on this file. -/

namespace Sys2Proof.Machine

/-! ## Pseudo-instructions (R70): each expands to commands and has no encoding of its own -/

/-- `TDEC payload`, TileCodec Decode: `TLD payload` then `TUNPK` (R70, 42_tile.md R129). -/
def expandTdec (pay : Payload) : List Instr := [.tld pay, .tunpk]

/-- `TENC payload`, TileCodec Encode: `TPK payload` then `TST` (R70, 42_tile.md R129). -/
def expandTenc (pay : Payload) : List Instr := [.tpk pay, .tst]

/-- `TCOPY payload`, the copy constructor: `TLD payload` (R70, 42_tile.md R129). -/
def expandTcopy (pay : Payload) : List Instr := [.tld pay]

/-- `MMK` with the operands given: an omitted one is zero (R70, 43_mapping.md R146). -/
def expandMmk (t : BitVec 16) (p : Byte := 0) (vf hf pri : BitVec 1 := 0) : List Instr :=
  [.mmk t p vf hf pri]

/-! ## Lexing -/

/-- The pieces of a line: words, commas and the two braces of a byte list. -/
inductive Token
  | word (w : List Char)
  | comma
  | openBrace
  | closeBrace
deriving DecidableEq, Repr

/-- End the word read so far, if there is one. The word is held back to front. -/
def endWord (w : List Char) (ts : List Token) : List Token :=
  match w with
  | [] => ts
  | _ :: _ => .word w.reverse :: ts

/-- The tokens of a line; a comment starts with `;` and runs to its end (R69). -/
def tokens (w : List Char) : List Char → List Token
  | [] => endWord w []
  | c :: cs =>
    if c = ';' then endWord w []
    else if c = ',' then endWord w (.comma :: tokens [] cs)
    else if c = Char.ofNat 123 then endWord w (.openBrace :: tokens [] cs)
    else if c = Char.ofNat 125 then endWord w (.closeBrace :: tokens [] cs)
    else if c.isWhitespace then endWord w (tokens [] cs)
    else tokens (c :: w) cs

/-! ## Operands (R69) -/

/-- The digits a number is written with, each at the place of its value (R69: decimal, hexadecimal, binary). -/
def digitOrder : List Char := "0123456789ABCDEF".toList

/-- The value of a digit of the base: its place among the base's digits. DESIGN CHOICE, log entry 10: a letter counts
in either case. -/
def digitOf (base : Nat) (c : Char) : Option Nat := (digitOrder.take base).idxOf? c.toUpper

/-- The number whose digits these are in the base, `acc` being the digits read already. -/
def numberFrom (base acc : Nat) : List Char → Option Nat
  | [] => some acc
  | c :: cs => (digitOf base c).bind fun d => numberFrom base (acc * base + d) cs

/-- A numeric operand: decimal, `0x` hexadecimal or `0b` binary (R69). -/
def number (w : List Char) : Option Nat :=
  match w with
  | [] => none
  | '0' :: 'x' :: d :: ds => numberFrom 16 0 (d :: ds)
  | '0' :: 'b' :: d :: ds => numberFrom 2 0 (d :: ds)
  | d :: ds => numberFrom 10 0 (d :: ds)

/-- A number as a field of `n` bits. DESIGN CHOICE, log entry 10: one that does not fit is rejected, since it "cannot be
expressed" (R63). -/
def fitsIn (n v : Nat) : Option (BitVec n) := if v < 2 ^ n then some (BitVec.ofNat n v) else none

/-- One operand as it is written (R69). -/
inductive Operand
  | reg (i : RegNo)
  | num (v : Nat)
  | pay (p : Payload)
deriving DecidableEq, Repr

/-- The bytes of a byte list: two hex digits each, no prefix, up to its closing brace (R69). How many bytes a payload
may have is `payloadOperand`'s to say. -/
def byteList : List Token → Option (List Byte)
  | [.closeBrace] => some []
  | .word [hi, lo] :: ts =>
    match numberFrom 16 0 [hi, lo], byteList ts with
    | some v, some bytes => some (BitVec.ofNat 8 v :: bytes)
    | _, _ => none
  | _ => none

/-- A byte list as a payload: `P = 1` and "`LEN` = number of bytes" (R69). DESIGN CHOICE, log entry 10: the spec does not
say what becomes of a list of more than 65535 bytes, which `LEN` cannot count (R61); it is rejected. -/
def payloadOperand (bytes : List Byte) : Option Operand :=
  if bytes.length ≤ Config.maxPayload then some (.pay (some bytes)) else none

/-- The operand between two commas: `C0` to `C31`, a number, a byte list, or the word `null` (R69). -/
def operand : List Token → Option Operand
  | [.word ['n', 'u', 'l', 'l']] => some (.pay none)
  | [.word ('C' :: d :: ds)] => (numberFrom 10 0 (d :: ds)).bind fun v => (fitsIn 5 v).map Operand.reg
  | [.word w] => (number w).map Operand.num
  | .openBrace :: ts => (byteList ts).bind payloadOperand
  | _ => none

/-- The token lists between commas. -/
def splitCommas : List Token → List (List Token)
  | [] => [[]]
  | .comma :: ts => [] :: splitCommas ts
  | t :: ts =>
    match splitCommas ts with
    | [] => [[t]]
    | g :: gs => (t :: g) :: gs

/-- Every operand of a list, none where one does not parse. -/
def operandList : List (List Token) → Option (List Operand)
  | [] => some []
  | g :: gs =>
    match operand g, operandList gs with
    | some o, some os => some (o :: os)
    | _, _ => none

/-- The operands after a mnemonic. -/
def operands : List Token → Option (List Operand)
  | [] => some []
  | t :: ts => operandList (splitCommas (t :: ts))

/-! ## Lines -/

/-- `MMK` in its four forms (R70). -/
def asmMmk : List Operand → Option (List Instr)
  | [.num t] => do some (expandMmk (← fitsIn 16 t))
  | [.num t, .num p] => do some (expandMmk (← fitsIn 16 t) (← fitsIn 8 p))
  | [.num t, .num p, .num vf, .num hf] => do
    some (expandMmk (← fitsIn 16 t) (← fitsIn 8 p) (← fitsIn 1 vf) (← fitsIn 1 hf))
  | [.num t, .num p, .num vf, .num hf, .num pri] => do
    some (expandMmk (← fitsIn 16 t) (← fitsIn 8 p) (← fitsIn 1 vf) (← fitsIn 1 hf) (← fitsIn 1 pri))
  | _ => none

/-- A mnemonic, and the commands its operands make (none where they are not of its form). -/
abbrev Form : Type := List Char × (List Operand → Option (List Instr))

/-- A mnemonic whose one operand is a payload. -/
def payloadForm (mnemonic : List Char) (mk : Payload → List Instr) : Form :=
  (mnemonic, fun
    | [.pay p] => some (mk p)
    | _ => none)

/-- A mnemonic without operands. -/
def plainForm (mnemonic : List Char) (i : Instr) : Form :=
  (mnemonic, fun
    | [] => some [i]
    | _ => none)

/-- A mnemonic whose one operand is a colour count. -/
def countForm (mnemonic : List Char) (mk : BitVec 6 → Instr) : Form :=
  (mnemonic, fun
    | [.num n] => do some [mk (← fitsIn 6 n)]
    | _ => none)

/-- The forms of the colour family. -/
def colourForms : List Form :=
  [ ("CQ".toList, fun
      | [.reg cd, .num r, .num g, .num b] => do some [.cq cd (← fitsIn 8 r) (← fitsIn 8 g) (← fitsIn 8 b)]
      | _ => none),
    ("CDEC".toList, fun
      | [.reg cd, .pay p] => some [.cdec cd p]
      | _ => none),
    ("CDECX".toList, fun
      | [.reg cd, .num idx, .pay p] => do some [.cdecx cd (← fitsIn 16 idx) p]
      | _ => none),
    ("CENC".toList, fun
      | [.reg cs] => some [.cenc cs]
      | _ => none) ]

/-- The forms of the palette family. -/
def paletteForms : List Form :=
  [ payloadForm "PDEC.F".toList fun p => [.pdecF p], payloadForm "PDEC.V".toList fun p => [.pdecV p],
    countForm "PLD.F".toList .pldF, countForm "PLD.V".toList .pldV, plainForm "PENC".toList .penc ]

/-- The forms of the tile family, its pseudo-instructions among them (R70). -/
def tileForms : List Form :=
  [ payloadForm "TLD".toList fun p => [.tld p], payloadForm "TPK".toList fun p => [.tpk p],
    plainForm "TUNPK".toList .tunpk, plainForm "TST".toList .tst, plainForm "TCLR".toList .tclr,
    payloadForm "TDEC".toList expandTdec, payloadForm "TENC".toList expandTenc, payloadForm "TCOPY".toList expandTcopy ]

/-- The forms of the mapping family. -/
def mappingForms : List Form :=
  [ ("MDEC".toList, fun
      | [.num off, .pay p] => do some [.mdec (← fitsIn 16 off) p]
      | _ => none),
    plainForm "MENC".toList .menc,
    ("MMK".toList, asmMmk) ]

/-- Every mnemonic with its operands in the order of its rule's heading (R69, R70). -/
def forms : List Form := colourForms ++ paletteForms ++ tileForms ++ mappingForms

/-- The commands of a mnemonic with its operands. -/
def asmCommand (mnemonic : List Char) (os : List Operand) : Option (List Instr) :=
  (forms.find? fun form => form.1 == mnemonic).bind fun form => form.2 os

/-- One line: a mnemonic and its operands, or nothing but a comment (R69). None where the line is not of that form. -/
def assembleLine (line : List Char) : Option (List Instr) :=
  match tokens [] line with
  | [] => some []
  | .word mnemonic :: ts => (operands ts).bind (asmCommand mnemonic)
  | _ => none

end Sys2Proof.Machine
end

