-- ==== Sys2Proof/Machine/Observe.lean ====
section
/-! DEFINITION. The observation port (spec 10_state.md R36): every field of every register, readable between commands
with no side effect. A field the spec calls unspecified "may show any value": here the value the argument `any` gives
it, which nothing constrains (93_implementation_defined.md N1). -/

namespace Sys2Proof.Machine

/-- What the port shows: the fields of R21, R24, R26, R27 and R28, validity bits among them. -/
structure PortView where
  colV : Vector Bool 32
  col : Vector Colour 32
  pv : Bool
  cnt : BitVec 5
  ent : Vector Colour 16
  tile : Vector Byte 32
  mv : Bool
  mapE : MapEntry
  stat : BitVec 32
deriving DecidableEq, Repr

/-- What the port shows of a state. `any` fills in what is unspecified (R21, R24, R35): the fields of a register that
holds no value, and the slots of PAL at and above `cnt`. -/
def observe (any : PortView) (s : State) : PortView where
  colV := s.col.map Option.isSome
  col := Vector.ofFn fun i : Fin 32 => s.col[i.val].getD any.col[i.val]
  pv := s.pal.isSome
  cnt := match s.pal with
    | some p => BitVec.ofNat 5 p.cnt
    | none => any.cnt
  ent := match s.pal with
    | some p => Vector.ofFn fun k : Fin 16 => p.ent[k.val]?.getD any.ent[k.val]
    | none => any.ent
  tile := s.tile
  mv := s.mapE.isSome
  mapE := s.mapE.getD any.mapE
  stat := s.stat

end Sys2Proof.Machine
end

