-- ==== Sys2Proof/Safety.lean ====
section
/-! DEFINITION. What claims about the VCB are stated in: the invariants of its state, what a command leaves alone, how
a command ends, and what a clean run is. -/

namespace Sys2Proof.Safety

open Sys2Proof.Machine

/-! ## Values -/

/-- A channel of an in-domain colour: one of 0, 2, ..., 14 (spec 10_state.md R22). -/
abbrev channelInDomain (v : Nat) : Prop := v % 2 = 0 ∧ v ≤ 14

/-- The in-domain predicate of R22. -/
abbrev inDomain (c : Colour) : Prop :=
  channelInDomain c.r.toNat ∧ channelInDomain c.g.toNat ∧ channelInDomain c.b.toNat

/-- What holds of every colour value: `R[0] = 0` (R22 a). -/
abbrev colourLegal (c : Colour) : Prop := c.r.toNat % 2 = 0

/-- The palette invariants of R25: at most 16 colours, every one a colour value. -/
abbrev paletteLegal (p : Palette) : Prop := p.cnt ≤ 16 ∧ ∀ c ∈ p.ent, colourLegal c

/-- The values STAT takes: zero, or `FLT` set, the reserved bits zero, and a class and code of 60_exceptions.md R161. -/
abbrev statLegal (w : BitVec 32) : Prop :=
  w ∈ [0x00000000#32, 0x80000101#32, 0x80000102#32, 0x80000103#32, 0x80000104#32, 0x80000105#32, 0x80000106#32,
    0x80000201#32, 0x80000202#32]

/-- A response packet as 30_encoding.md R67 has it: `RLEN` counts the result bytes, `CA` is zero when `ST` is OK, and
there are no result bytes when it is not. -/
abbrev responseLegal (r : Response) : Prop :=
  (wordRlen r.word).toNat = r.res.length ∧ (wordStatus r.word = 0 → wordCause r.word = 0) ∧
    (wordStatus r.word ≠ 0 → r.res = [])

/-! ## The spec's own tables and formulas, for statements about the model's -/

/-- The rows of 30_encoding.md R64, transcribed: opcode, `match`, `mask`. -/
def opcodeMap : List (BitVec 8 × BitVec 64 × BitVec 64) :=
  [(0x10, 0x1000000000000000, 0xFFFFFFFFE0000000), (0x11, 0x1100000000000000, 0xFF7F0000E0FFFFFF),
   (0x12, 0x1200000000000000, 0xFF7F0000E0FF0000), (0x13, 0x1300000000000000, 0xFFFFFFFFE0FFFFFF)]
  ++ [(0x20, 0x2000000000000000, 0xFF7F0000FFFFFFFF), (0x21, 0x2100000000000000, 0xFF7F0000FFFFFFFF),
   (0x22, 0x2200000000000000, 0xFFFFFFFFFFFFFFC0), (0x23, 0x2300000000000000, 0xFFFFFFFFFFFFFFC0),
   (0x24, 0x2400000000000000, 0xFFFFFFFFFFFFFFFF)]
  ++ [(0x30, 0x3000000000000000, 0xFF7F0000FFFFFFFF), (0x31, 0x3100000000000000, 0xFF7F0000FFFFFFFF),
   (0x32, 0x3200000000000000, 0xFFFFFFFFFFFFFFFF), (0x33, 0x3300000000000000, 0xFFFFFFFFFFFFFFFF),
   (0x34, 0x3400000000000000, 0xFFFFFFFFFFFFFFFF)]
  ++ [(0x40, 0x4000000000000000, 0xFF7F0000FFFF0000), (0x41, 0x4100000000000000, 0xFFFFFFFFFFFFFFFF),
   (0x42, 0x4200000000000000, 0xFFFFFFFFF8000000)]

/-- The opcode of a command (30_encoding.md R64). -/
def opcodeOf : Instr → BitVec 8
  | .cq _ _ _ _ => 0x10
  | .cdec _ _ => 0x11
  | .cdecx _ _ _ => 0x12
  | .cenc _ => 0x13
  | .pdecF _ => 0x20
  | .pdecV _ => 0x21
  | .pldF _ => 0x22
  | .pldV _ => 0x23
  | .penc => 0x24
  | .tld _ => 0x30
  | .tpk _ => 0x31
  | .tunpk => 0x32
  | .tst => 0x33
  | .tclr => 0x34
  | .mdec _ _ => 0x40
  | .menc => 0x41
  | .mmk _ _ _ _ _ => 0x42

/-- A packet by the pictures of 30_encoding.md R60 to R62: the opcode; `P` with `RSV` zero; `LEN`, most significant byte
first; the four bytes of `ARG`; the payload. -/
def packetOf (opc : Byte) (pay : Payload) (arg : List Byte) : List Byte :=
  [opc, if pay.isSome then 0x80 else 0x00, BitVec.ofNat 8 ((pay.getD []).length / 256),
    BitVec.ofNat 8 (pay.getD []).length] ++ arg ++ pay.getD []

/-- `c` is the colour of a colour word (40_color.md R81): R masked, G shifted down, B the whole byte. -/
def decodesTo (byte0 byte1 : Byte) (c : Colour) : Prop :=
  c.r.toNat = byte1.toNat &&& 0b1110 ∧ c.g.toNat = byte1.toNat >>> 4 ∧ c.b = byte0

/-- The second byte of a colour word: G in bits 7:4, R in bits 3:0 (20_memory.md R43). -/
def greenRed (c : Colour) : Byte := c.g ++ c.r

/-- The value `pixnorm` gives a pixel byte under each setting of `PIX_OVF` (42_tile.md R122). -/
def pixelValue : PixOvf → Nat → Nat
  | .clamp, v => min v 15
  | .mask, v => v &&& 0x0F

/-- A mapping entry as 16 bits, `P CC V H` and eleven bits of tile index (20_memory.md R42, R47). -/
def entryWord (e : MapEntry) : BitVec 16 := e.pri ++ e.pal ++ e.vf ++ e.hf ++ e.tile

/-! ## The invariant -/

/-- What every step keeps: R22 (a), R25, R28 with R161, R67. -/
structure StateInv (s : State) : Prop where
  colours : ∀ i c, readColour s i = some c → colourLegal c
  palette : ∀ p, s.pal = some p → paletteLegal p
  stat : statLegal s.stat
  responses : ∀ r ∈ s.outbox, responseLegal r

/-! ## What is left alone -/

/-- No object register differs (60_exceptions.md R165 a). -/
abbrev sameObjects (s t : State) : Prop := t.col = s.col ∧ t.pal = s.pal ∧ t.tile = s.tile ∧ t.mapE = s.mapE

/-- Nothing but `C[cd]` and the responses differs. -/
def onlyColour (cd : RegNo) (s t : State) : Prop :=
  (∀ j, j ≠ cd → readColour t j = readColour s j) ∧ t.pal = s.pal ∧ t.tile = s.tile ∧ t.mapE = s.mapE ∧
    t.stat = s.stat ∧ t.params = s.params ∧ t.inbox = s.inbox

/-- Nothing but PAL and the responses differs. -/
def onlyPal (s t : State) : Prop :=
  t.col = s.col ∧ t.tile = s.tile ∧ t.mapE = s.mapE ∧ t.stat = s.stat ∧ t.params = s.params ∧ t.inbox = s.inbox

/-- Nothing but TILE and the responses differs. -/
def onlyTile (s t : State) : Prop :=
  t.col = s.col ∧ t.pal = s.pal ∧ t.mapE = s.mapE ∧ t.stat = s.stat ∧ t.params = s.params ∧ t.inbox = s.inbox

/-- Nothing but MAP and the responses differs. -/
def onlyMap (s t : State) : Prop :=
  t.col = s.col ∧ t.pal = s.pal ∧ t.tile = s.tile ∧ t.stat = s.stat ∧ t.params = s.params ∧ t.inbox = s.inbox

/-- Nothing but the responses differs. -/
def onlyResponds (s t : State) : Prop :=
  sameObjects s t ∧ t.stat = s.stat ∧ t.params = s.params ∧ t.inbox = s.inbox

/-! ## How a command ends -/

/-- One OK response with these result bytes was issued (30_encoding.md R67). -/
def respondsOk (res : List Byte) (s t : State) : Prop :=
  ∃ r, t.outbox = s.outbox ++ [r] ∧ wordStatus r.word = 0x00 ∧ wordCause r.word = 0x00 ∧
    (wordRlen r.word).toNat = res.length ∧ r.res = res

/-- A fault of class `st` and cause `ca` was recorded and no object register written (60_exceptions.md R165). -/
def faultRecorded (st ca : Byte) (s t : State) : Prop :=
  sameObjects s t ∧ t.params = s.params ∧ t.inbox = s.inbox ∧
    statFlt t.stat = true ∧ statReserved t.stat = 0 ∧ statLst t.stat = st ∧ statLca t.stat = ca

/-- The fault response of 60_exceptions.md R165 with status `st` and cause code `ca`: no object register written, STAT
recorded, one response without result bytes. -/
def faultsAs (st ca : Byte) (s : State) (o : Outcome) : Prop :=
  ∃ t, o = .next t ∧ faultRecorded st ca s t ∧
    ∃ r, t.outbox = s.outbox ++ [r] ∧ wordStatus r.word = st ∧ wordCause r.word = ca ∧
      wordRlen r.word = 0 ∧ r.res = []

/-- Two responses were issued (30_encoding.md R67): the first with status `st`, cause `ca` and no result bytes, the second
an OK one with these result bytes. -/
def answersTwo (st ca : Byte) (res : List Byte) (s t : State) : Prop :=
  ∃ r q, t.outbox = s.outbox ++ [r, q] ∧ wordStatus r.word = st ∧ wordCause r.word = ca ∧ wordRlen r.word = 0 ∧
    r.res = [] ∧ wordStatus q.word = 0x00 ∧ wordCause q.word = 0x00 ∧ (wordRlen q.word).toNat = res.length ∧ q.res = res

/-! ## Runs -/

/-- "No command has faulted since reset" (60_exceptions.md R172, 70_reset_and_hazards.md R185). -/
abbrev clean (s : State) : Prop := statFlt s.stat = false

/-- The commands applied in order as functions of the state, stopping where one stops (70_reset_and_hazards.md R185,
20_memory.md R53). -/
def execAll : List Instr → State → Outcome
  | [], s => .next s
  | i :: is, s =>
    match exec i s with
    | .next t => execAll is t
    | .fault f => .fault f
    | .refused r => .refused r

end Sys2Proof.Safety
end

