-- ==== Sys2Proof/WellFormed.lean ====
section
/-! DEFINITION. Which commands a packet can carry. Every operand field has its own width in `Instr` and every value
of it is legal (spec 30_encoding.md R63), so the payload's length is the one thing to check. -/

namespace Sys2Proof

/-- A payload the header can announce: absent, or of at most `MAX_PAYLOAD` bytes (R61, 20_memory.md R40). -/
def payloadFits : Payload → Bool
  | none => true
  | some bytes => decide (bytes.length ≤ Config.maxPayload)

/-- A command some packet encodes: its payload fits the 16-bit `LEN` (R61). -/
abbrev Instr.WellFormed (i : Instr) : Prop := payloadFits i.payload = true

end Sys2Proof
end

