-- ==== Sys2Proof/Certificates/Slice0/Obligations.lean ====
section
/-! DEFINITION. What is to be proved of the VCB, from the numbered rules of the spec. -/

open Sys2Proof Sys2Proof.Machine Sys2Proof.Safety

/-! ## Encoding (30_encoding.md) -/

/-- Every command a packet can carry is read back from its packet with every operand and its payload, whatever follows
in the stream (R60 to R65). -/
def Obligations.DecodeUndoesEncode : Prop :=
  ∀ (i : Instr) (rest : List Byte), i.WellFormed → decode (encode i ++ rest) = .instr i rest

/-- Bytes that decode to a command are that command's own packet and what follows it: no packet has two readings
(R60 to R65). -/
def Obligations.LegalPacketIsItsEncoding : Prop :=
  ∀ (bytes rest : List Byte) (i : Instr), decode bytes = .instr i rest → i.WellFormed ∧ bytes = encode i ++ rest

/-- A few packets of the spec's own test vectors, at least one a family, decode to the commands they stand for
(95_test_vectors.md V4, V20, V39, V46, P5). -/
def Obligations.SpecPacketsDecode : Prop :=
  decodeTableWord 64 0x100000000225C863 = some (.cq 2 37 200 99) ∧
  decode [0x12, 0x80, 0x00, 0x06, 0x03, 0x00, 0x00, 0x01, 0x00, 0x00, 0x0A, 0x4C, 0x0E, 0xEE] =
    .instr (.cdecx 3 1 (some [0x00, 0x00, 0x0A, 0x4C, 0x0E, 0xEE])) [] ∧
  decodeTableWord 64 0x2200000000000010 = some (.pldF 16) ∧
  decode ([0x30, 0x80, 0x00, 0x20, 0x00, 0x00, 0x00, 0x00] ++ List.replicate 32 0xAB) =
    .instr (.tld (some (List.replicate 32 0xAB))) [] ∧
  decode [0x40, 0x80, 0x00, 0x04, 0x00, 0x00, 0x00, 0x01, 0xFF, 0xA9, 0x34, 0x00] =
    .instr (.mdec 1 (some [0xFF, 0xA9, 0x34, 0x00])) [] ∧
  decodeTableWord 64 0x4200000007020005 = some (.mmk 5 2 1 1 1)

/-- "No header matches two rows" of the decoder's own table (R64, R65; 95_test_vectors.md section 4), which is the
spec's, and a header that matches a row is one the decoder reads by that row. -/
def Obligations.NoHeaderMatchesTwoRows : Prop :=
  rows.map (fun row => (row.opc, row.fixed, row.mask)) = opcodeMap ∧
  ∀ h : BitVec 64, (rows.filter fun row => h &&& row.mask == row.fixed).length ≤ 1 ∧
    ∀ row ∈ rows, h &&& row.mask = row.fixed → (pOf h = true ∨ lenOf h = 0) → ∀ pay : List Byte,
      decodeHeader h pay = .ok (row.build h (if pOf h then some pay else none))

/-! ## Steps: the stream, illegal packets, reset -/

/-- When the bytes at the front of the host's stream are the packet of a command, a step consumes that packet and runs
that command (R53, R60). -/
def Obligations.StepRunsDecodedInstruction : Prop :=
  ∀ (s : State) (bytes : List Byte) (i : Instr) (ms : List HostMove),
    decode bytes = .instr i [] → s.inbox = sendBytes bytes ++ ms → step s = exec i (withInbox ms s)

/-- R65 on a whole packet at the front of the stream: an undefined opcode, then a wrong fixed bit, then `P = 0` with
`LEN` not 0, ends as IllegalCommand with the packet consumed; any other packet runs the one command it encodes. -/
def Obligations.HeaderDecodesOrFaultsInOrder : Prop :=
  ∀ (s : State) (h : BitVec 64) (pay : List Byte) (ms : List HostMove),
    pay.length = (lenOf h).toNat → s.inbox = sendBytes (headerBytes h ++ pay) ++ ms →
    match opcodeMap.find? (fun row => row.1 == opcOf h) with
    | none => faultsAs 0x02 0x01 (withInbox ms s) (step s)
    | some (_, fixed, mask) =>
      if h &&& mask ≠ fixed then faultsAs 0x02 0x02 (withInbox ms s) (step s)
      else if pOf h = false ∧ lenOf h ≠ 0 then faultsAs 0x02 0x02 (withInbox ms s) (step s)
      else ∃ i, opcodeOf i = opcOf h ∧ i.payload = (if pOf h then some pay else none) ∧
        encode i = headerBytes h ++ pay ∧ step s = exec i (withInbox ms s)

/-- Every packet, whatever its header, is consumed whole and gets exactly one response (R60, R67); the response is
well-formed when PAL holds no more than its 16 colours. -/
def Obligations.EveryPacketIsConsumedAndAnsweredOnce : Prop :=
  ∀ (s : State) (h : BitVec 64) (pay : List Byte) (ms : List HostMove),
    pay.length = (lenOf h).toNat → s.inbox = sendBytes (headerBytes h ++ pay) ++ ms →
    (∀ p, s.pal = some p → paletteLegal p) →
    ∃ t r, step s = .next t ∧ t.inbox = ms ∧ t.outbox = s.outbox ++ [r] ∧ responseLegal r

/-- What reset leaves (10_state.md R35), in the state the model names after reset. -/
def Obligations.ResetStateHoldsResetValues : Prop :=
  (∀ i, readColour State.reset i = none) ∧ State.reset.pal = none ∧
  (∀ k, (hk : k < 32) → State.reset.tile[k] = 0x00) ∧ State.reset.mapE = none ∧ State.reset.stat = 0x00000000

/-- The reset input, between commands, puts every register at its reset value from any state (70_reset_and_hazards.md
R180). That the parameters, the coming moves and the responses stay is the model's choice (log entry 8). -/
def Obligations.ResetInputRestoresResetValues : Prop :=
  ∀ (s : State) (ms : List HostMove), s.inbox = .reset :: ms →
    ∃ t, step s = .next t ∧ (∀ i, readColour t i = none) ∧ t.pal = none ∧
      (∀ k, (hk : k < 32) → t.tile[k] = 0x00) ∧ t.mapE = none ∧ t.stat = 0x00000000 ∧
      t.params = s.params ∧ t.inbox = ms ∧ t.outbox = s.outbox

/-- With nothing sent, the VCB is idle and keeps all its state (60_exceptions.md R171). That idling is a step is the
model's choice (log entry 4). -/
def Obligations.IdleStepKeepsState : Prop :=
  ∀ s : State, s.inbox = [] → step s = .next s

/-- A packet whose bytes do not all come is stuck, and reset inside a packet has no meaning (93_implementation_defined.md
N4, N2; log entries 5 and 6): both with 1 to 7 header bytes, and with a whole header and too few payload bytes. -/
def Obligations.UnfinishedPacketStops : Prop :=
  ∀ (s : State) (bytes : List Byte),
    ((0 < bytes.length ∧ bytes.length < 8) ∨
      ∃ h pay, bytes = headerBytes h ++ pay ∧ pay.length < (lenOf h).toNat) →
    (s.inbox = sendBytes bytes → step s = .fault .packetCutShort) ∧
    (∀ ms, s.inbox = sendBytes bytes ++ .reset :: ms → step s = .refused .resetInCommand)

/-! ## Colour family (40_color.md) -/

/-- The channel quantiser by its contract, by bits, and by its table of eight bands (R80). -/
def Obligations.QuantiserFloorsThenMasks : Prop :=
  ∀ v : Byte, (quantise v).toNat = (v.toNat / 16) &&& 0b1110 ∧ quantise v = v.extractLsb' 5 3 ++ 0#1 ∧
    (quantise v).toNat = 2 * (v.toNat / 32)

/-- Round trips of the colour codec (R83): (a) on every colour value a register can hold; (b) on every pair of bytes,
which come back unchanged exactly when bit 0 of the second is 0, as in every in-domain word; (c) the quantiser's range,
and that it drops bits 4:0. -/
def Obligations.ColourCodecRoundTrips : Prop :=
  (∀ c : Colour, colourLegal c → coldec (colenc c).1 (colenc c).2 = c) ∧
  (∀ byte0 byte1 : Byte, colenc (coldec byte0 byte1) = (byte0, byte1 &&& 0xFE) ∧
    (colenc (coldec byte0 byte1) = (byte0, byte1) ↔ byte1.getLsbD 0 = false)) ∧
  (∀ c : Colour, inDomain c → (colenc c).2.getLsbD 0 = false) ∧
  (∀ v : Byte, channelInDomain (quantise v).toNat) ∧ (∀ v w : Byte, v >>> 5 = w >>> 5 → quantise v = quantise w)

/-- When a colour decoded by CDEC or CDECX is in-domain, and that a quantised one always is (10_state.md R22 b, c). -/
def Obligations.InDomainExactlyFromConventionalWords : Prop :=
  ∀ (s : State) (cd : RegNo) (byte0 byte1 r g b : Byte),
    (∃ t c, exec (.cdec cd (some [byte0, byte1])) s = .next t ∧ readColour t cd = some c ∧
      (inDomain c ↔ channelInDomain byte0.toNat ∧ byte1.getLsbD 4 = false)) ∧
    (∀ (idx : BitVec 16) (bytes : List Byte) (h : 2 * idx.toNat + 1 < bytes.length),
      ∃ t c, exec (.cdecx cd idx (some bytes)) s = .next t ∧ readColour t cd = some c ∧
        (inDomain c ↔
          channelInDomain bytes[2 * idx.toNat].toNat ∧ bytes[2 * idx.toNat + 1].getLsbD 4 = false)) ∧
    (∃ t c, exec (.cq cd r g b) s = .next t ∧ readColour t cd = some c ∧ inDomain c)

/-- CQ (R84): always completes, writes the quantised channels to `C[cd]`, and nothing else. -/
def Obligations.CqWritesQuantisedColour : Prop :=
  ∀ (s : State) (cd : RegNo) (r g b : Byte),
    encode (.cq cd r g b) = packetOf 0x10 none [0#3 ++ cd, r, g, b] ∧
    ∃ t c, exec (.cq cd r g b) s = .next t ∧ readColour t cd = some c ∧
      c.r.toNat = (r.toNat / 16) &&& 0b1110 ∧ c.g.toNat = (g.toNat / 16) &&& 0b1110 ∧
      c.b.toNat = (b.toNat / 16) &&& 0b1110 ∧ inDomain c ∧ onlyColour cd s t ∧ respondsOk [] s t

/-- CDEC (R85): completes on every 2-byte payload; NULL_INPUT without a payload, LENGTH on any other length. -/
def Obligations.CdecDecodesTwoBytes : Prop :=
  ∀ (s : State) (cd : RegNo),
    (∀ pay, encode (.cdec cd pay) = packetOf 0x11 pay [0#3 ++ cd, 0, 0, 0]) ∧
    (∀ byte0 byte1 : Byte, ∃ t c, exec (.cdec cd (some [byte0, byte1])) s = .next t ∧ readColour t cd = some c ∧
      decodesTo byte0 byte1 c ∧ onlyColour cd s t ∧ respondsOk [] s t) ∧
    faultsAs 0x01 0x01 s (exec (.cdec cd none) s) ∧
    (∀ bytes : List Byte, bytes.length ≠ 2 → faultsAs 0x01 0x02 s (exec (.cdec cd (some bytes)) s))

/-- CDECX (R86): completes when both bytes of the slot lie in the payload; NULL_INPUT without a payload, RANGE when
they do not. -/
def Obligations.CdecxDecodesSlot : Prop :=
  ∀ (s : State) (cd : RegNo) (idx : BitVec 16),
    (∀ pay, encode (.cdecx cd idx pay) =
      packetOf 0x12 pay [0#3 ++ cd, 0, idx.extractLsb' 8 8, idx.extractLsb' 0 8]) ∧
    (∀ (bytes : List Byte) (h : 2 * idx.toNat + 1 < bytes.length),
      ∃ t c, exec (.cdecx cd idx (some bytes)) s = .next t ∧ readColour t cd = some c ∧
        decodesTo bytes[2 * idx.toNat] bytes[2 * idx.toNat + 1] c ∧ onlyColour cd s t ∧ respondsOk [] s t) ∧
    faultsAs 0x01 0x01 s (exec (.cdecx cd idx none) s) ∧
    (∀ bytes : List Byte, 2 * idx.toNat + 1 ≥ bytes.length →
      faultsAs 0x01 0x04 s (exec (.cdecx cd idx (some bytes)) s))

/-- CENC (R87): completes when `C[cs]` holds a colour and answers its two bytes; NULL_OBJECT when it holds none. -/
def Obligations.CencAnswersColourWord : Prop :=
  ∀ (s : State) (cs : RegNo),
    encode (.cenc cs) = packetOf 0x13 none [0#3 ++ cs, 0, 0, 0] ∧
    (∀ c, readColour s cs = some c →
      ∃ t, exec (.cenc cs) s = .next t ∧ respondsOk [c.b, greenRed c] s t ∧ onlyResponds s t) ∧
    (readColour s cs = none → faultsAs 0x01 0x05 s (exec (.cenc cs) s))

/-- What the colour family guarantees together (R88). -/
def Obligations.ColourFamilyRoundTrips : Prop :=
  (∀ (s : State) (cd : RegNo) (r g b : Byte),
    ∃ t u, exec (.cq cd r g b) s = .next t ∧ exec (.cenc cd) t = .next u ∧
      respondsOk [(quantise b).setWidth 8, quantise g ++ quantise r] t u) ∧
  (∀ (s : State) (cd : RegNo) (w0 w1 : Byte),
    ∃ t u, exec (.cdec cd (some [w0, w1])) s = .next t ∧ exec (.cenc cd) t = .next u ∧
      respondsOk [w0, w1 &&& 0xFE] t u) ∧
  (∀ (s : State) (cs cd : RegNo) (c : Colour), readColour s cs = some c → colourLegal c →
    ∃ t u w0 w1, exec (.cenc cs) s = .next t ∧ respondsOk [w0, w1] s t ∧
      exec (.cdec cd (some [w0, w1])) t = .next u ∧ readColour u cd = some c)

/-! ## Palette family (41_palette.md) -/

/-- Round trips of the palette codec (R102): (a) on every palette a register can hold; (b) on every buffer of even
length, which comes back with bit 0 of each odd-offset byte cleared, hence unchanged exactly when those bits are 0, as
in every buffer of in-domain colour words. -/
def Obligations.PaletteCodecRoundTrips : Prop :=
  (∀ p : Palette, paletteLegal p → paldec (palenc p) = p) ∧
  (∀ bytes : List Byte, bytes.length % 2 = 0 →
    (palenc (paldec bytes)).length = bytes.length ∧
    (∀ k (hk : 2 * k + 1 < bytes.length),
      (palenc (paldec bytes))[2 * k]? = some bytes[2 * k] ∧
      (palenc (paldec bytes))[2 * k + 1]? = some (bytes[2 * k + 1] &&& 0xFE)) ∧
    (palenc (paldec bytes) = bytes ↔ ∀ k (hk : 2 * k + 1 < bytes.length), bytes[2 * k + 1].getLsbD 0 = false)) ∧
  (∀ p : Palette, (∀ c ∈ p.ent, inDomain c) → palenc (paldec (palenc p)) = palenc p)

/-- PDEC.F (R103): completes on every 32-byte payload; NULL_INPUT without a payload, LENGTH on any other length. -/
def Obligations.PdecFDecodesSixteenColours : Prop :=
  ∀ s : State,
    (∀ pay, encode (.pdecF pay) = packetOf 0x20 pay [0, 0, 0, 0]) ∧
    (∀ bytes : List Byte, bytes.length = 32 →
      ∃ t p, exec (.pdecF (some bytes)) s = .next t ∧ t.pal = some p ∧ p.cnt = 16 ∧
        (∀ k (hk : 2 * k + 1 < bytes.length), ∃ c, p.ent[k]? = some c ∧ decodesTo bytes[2 * k] bytes[2 * k + 1] c) ∧
        onlyPal s t ∧ respondsOk [] s t) ∧
    faultsAs 0x01 0x01 s (exec (.pdecF none) s) ∧
    (∀ bytes : List Byte, bytes.length ≠ 32 → faultsAs 0x01 0x02 s (exec (.pdecF (some bytes)) s))

/-- PDEC.V (R104): completes on every payload of an even length up to 32; NULL_INPUT without a payload, LENGTH on an
odd length or one above 32. -/
def Obligations.PdecVDecodesEvenBuffer : Prop :=
  ∀ s : State,
    (∀ pay, encode (.pdecV pay) = packetOf 0x21 pay [0, 0, 0, 0]) ∧
    (∀ bytes : List Byte, bytes.length % 2 = 0 → bytes.length ≤ 32 →
      ∃ t p, exec (.pdecV (some bytes)) s = .next t ∧ t.pal = some p ∧ p.cnt = bytes.length / 2 ∧
        (∀ k (hk : 2 * k + 1 < bytes.length), ∃ c, p.ent[k]? = some c ∧ decodesTo bytes[2 * k] bytes[2 * k + 1] c) ∧
        onlyPal s t ∧ respondsOk [] s t) ∧
    faultsAs 0x01 0x01 s (exec (.pdecV none) s) ∧
    (∀ bytes : List Byte, bytes.length % 2 = 1 ∨ bytes.length > 32 →
      faultsAs 0x01 0x02 s (exec (.pdecV (some bytes)) s))

/-- PLD.F (R105): completes with `n = 16` when `C[0]` to `C[15]` all hold colours, and copies them in order; CAPACITY
above 16 and LENGTH below it before any register is read; NULL_OBJECT when one holds none. -/
def Obligations.PldFCopiesSixteenRegisters : Prop :=
  ∀ s : State,
    (∀ n : BitVec 6, encode (.pldF n) = packetOf 0x22 none [0, 0, 0, 0#2 ++ n]) ∧
    ((∀ k, k < 16 → readColour s (BitVec.ofNat 5 k) ≠ none) →
      ∃ t p, exec (.pldF 16) s = .next t ∧ t.pal = some p ∧ p.cnt = 16 ∧
        (∀ k, k < 16 → p.ent[k]? = readColour s (BitVec.ofNat 5 k)) ∧ onlyPal s t ∧ respondsOk [] s t) ∧
    (∀ n : BitVec 6, n.toNat > 16 → faultsAs 0x01 0x03 s (exec (.pldF n) s)) ∧
    (∀ n : BitVec 6, n.toNat < 16 → faultsAs 0x01 0x02 s (exec (.pldF n) s)) ∧
    ((∃ k, k < 16 ∧ readColour s (BitVec.ofNat 5 k) = none) → faultsAs 0x01 0x05 s (exec (.pldF 16) s))

/-- PLD.V (R106): completes with `n` up to 16 when `C[0]` to `C[n - 1]` all hold colours, and copies them in order;
CAPACITY above 16; NULL_OBJECT when one of them holds none. -/
def Obligations.PldVCopiesRegisters : Prop :=
  ∀ (s : State) (n : BitVec 6),
    encode (.pldV n) = packetOf 0x23 none [0, 0, 0, 0#2 ++ n] ∧
    (n.toNat ≤ 16 → (∀ k, k < n.toNat → readColour s (BitVec.ofNat 5 k) ≠ none) →
      ∃ t p, exec (.pldV n) s = .next t ∧ t.pal = some p ∧ p.cnt = n.toNat ∧
        (∀ k, k < n.toNat → p.ent[k]? = readColour s (BitVec.ofNat 5 k)) ∧ onlyPal s t ∧ respondsOk [] s t) ∧
    (n.toNat > 16 → faultsAs 0x01 0x03 s (exec (.pldV n) s)) ∧
    (n.toNat ≤ 16 → (∃ k, k < n.toNat ∧ readColour s (BitVec.ofNat 5 k) = none) →
      faultsAs 0x01 0x05 s (exec (.pldV n) s))

/-- PENC (R107): completes when PAL holds a palette (of at most 16 colours, R25) and answers `2 * cnt` bytes, each
slot's colour word in order; NULL_OBJECT when it holds none. -/
def Obligations.PencAnswersPaletteBytes : Prop :=
  ∀ s : State,
    encode .penc = packetOf 0x24 none [0, 0, 0, 0] ∧
    (∀ p, s.pal = some p → p.cnt ≤ 16 →
      ∃ t res, exec .penc s = .next t ∧ respondsOk res s t ∧ res.length = 2 * p.cnt ∧
        (∀ k c, p.ent[k]? = some c → res[2 * k]? = some c.b ∧ res[2 * k + 1]? = some (greenRed c)) ∧
        onlyResponds s t) ∧
    (s.pal = none → faultsAs 0x01 0x05 s (exec .penc s))

/-- What the palette family guarantees together (R108): a buffer decoded in either mode is answered with bit 0 of its
odd-offset bytes cleared; an answered palette decoded again is the same palette; a palette loaded in either mode
from in-domain colours, as CQ writes them, is in-domain and its bytes have the conventional form. -/
def Obligations.PaletteFamilyRoundTrips : Prop :=
  (∀ (s : State) (w : List Byte) (i : Instr),
    (i = .pdecF (some w) ∧ w.length = 32) ∨ (i = .pdecV (some w) ∧ w.length % 2 = 0 ∧ w.length ≤ 32) →
    ∃ t u res, exec i s = .next t ∧ exec .penc t = .next u ∧ respondsOk res t u ∧ res.length = w.length ∧
      ∀ k (hk : 2 * k + 1 < w.length), res[2 * k]? = some w[2 * k] ∧ res[2 * k + 1]? = some (w[2 * k + 1] &&& 0xFE)) ∧
  (∀ (s : State) (p : Palette), s.pal = some p → paletteLegal p →
    ∃ t u w, exec .penc s = .next t ∧ respondsOk w s t ∧ exec (.pdecV (some w)) t = .next u ∧ u.pal = some p) ∧
  (∀ (s : State) (n : BitVec 6) (i : Instr), (i = .pldF n ∧ n.toNat = 16) ∨ (i = .pldV n ∧ n.toNat ≤ 16) →
    (∀ k, k < n.toNat → ∃ c, readColour s (BitVec.ofNat 5 k) = some c ∧ inDomain c) →
    ∃ t u p res, exec i s = .next t ∧ t.pal = some p ∧ (∀ c ∈ p.ent, inDomain c) ∧
      exec .penc t = .next u ∧ respondsOk res t u ∧
      ∀ k byte, res[k]? = some byte → byte &&& (if k % 2 = 0 then 0xF1 else 0x11) = 0x00)

/-! ## Tile family (42_tile.md) -/

/-- Round trips of the tile codec (R123), under either setting of `PIX_OVF`. -/
def Obligations.TileCodecRoundTrips : Prop :=
  ∀ ovf : PixOvf,
    (∀ t : Vector Byte 32, tilePack ovf (tileUnpack t) = t) ∧
    (∀ px : Vector Byte 64,
      (tileUnpack (tilePack ovf px) = px ↔ ∀ k, (hk : k < 64) → px[k].toNat ≤ 15) ∧
      ∀ k, (hk : k < 64) → (tileUnpack (tilePack ovf px))[k].toNat = pixelValue ovf px[k].toNat) ∧
    (∀ (t : Vector Byte 32) (k : Nat) (hk : k < 32), t[k] = 0xAB →
      (tileUnpack t)[2 * k] = 0x0A ∧ (tileUnpack t)[2 * k + 1] = 0x0B)

/-- TLD (R124): completes on every 32-byte payload and copies it; NULL_INPUT without a payload, LENGTH on any other
length. -/
def Obligations.TldCopiesThirtyTwoBytes : Prop :=
  ∀ s : State,
    (∀ pay, encode (.tld pay) = packetOf 0x30 pay [0, 0, 0, 0]) ∧
    (∀ bytes : List Byte, bytes.length = 32 →
      ∃ t, exec (.tld (some bytes)) s = .next t ∧ t.tile.toList = bytes ∧ onlyTile s t ∧ respondsOk [] s t) ∧
    faultsAs 0x01 0x01 s (exec (.tld none) s) ∧
    (∀ bytes : List Byte, bytes.length ≠ 32 → faultsAs 0x01 0x02 s (exec (.tld (some bytes)) s))

/-- TPK (R125, R121, R122): completes on every 64-byte payload and packs it by the instance's `PIX_OVF`, the even pixel
in the high nibble; NULL_INPUT without a payload, LENGTH on any other length. -/
def Obligations.TpkPacksPixels : Prop :=
  ∀ s : State,
    (∀ pay, encode (.tpk pay) = packetOf 0x31 pay [0, 0, 0, 0]) ∧
    (∀ (bytes : List Byte) (hl : bytes.length = 64),
      ∃ t, exec (.tpk (some bytes)) s = .next t ∧
        (∀ k, (hk : k < 32) → t.tile[k].toNat =
          16 * pixelValue s.params.pixOvf bytes[2 * k].toNat + pixelValue s.params.pixOvf bytes[2 * k + 1].toNat) ∧
        onlyTile s t ∧ respondsOk [] s t) ∧
    faultsAs 0x01 0x01 s (exec (.tpk none) s) ∧
    (∀ bytes : List Byte, bytes.length ≠ 64 → faultsAs 0x01 0x02 s (exec (.tpk (some bytes)) s))

/-- TUNPK (R126, R120): always completes and answers the 64 pixels, high nibble first. -/
def Obligations.TunpkAnswersPixels : Prop :=
  ∀ s : State, encode .tunpk = packetOf 0x32 none [0, 0, 0, 0] ∧
    ∃ t res, exec .tunpk s = .next t ∧ respondsOk res s t ∧ res.length = 64 ∧
    (∀ k, (hk : k < 32) → res[2 * k]? = some (s.tile[k] >>> 4) ∧ res[2 * k + 1]? = some (s.tile[k] &&& 0x0F)) ∧
    onlyResponds s t

/-- TST (R127): always completes and answers the 32 packed bytes. -/
def Obligations.TstAnswersPackedTile : Prop :=
  ∀ s : State, encode .tst = packetOf 0x33 none [0, 0, 0, 0] ∧
    ∃ t, exec .tst s = .next t ∧ respondsOk s.tile.toList s t ∧ onlyResponds s t

/-- TCLR (R128): always completes and leaves the tile reset leaves. -/
def Obligations.TclrBlanksTile : Prop :=
  ∀ s : State, encode .tclr = packetOf 0x34 none [0, 0, 0, 0] ∧
    ∃ t, exec .tclr s = .next t ∧ (∀ k, (hk : k < 32) → t.tile[k] = 0x00) ∧
      t.tile = State.reset.tile ∧ onlyTile s t ∧ respondsOk [] s t

/-- What the tile family guarantees together (R130). -/
def Obligations.TileFamilyRoundTrips : Prop :=
  (∀ (s : State) (w : List Byte), w.length = 32 →
    ∃ t u, exec (.tld (some w)) s = .next t ∧ exec .tst t = .next u ∧ respondsOk w t u) ∧
  (∀ (s : State) (w : List Byte), w.length = 32 →
    ∃ t u px v x, exec (.tld (some w)) s = .next t ∧ exec .tunpk t = .next u ∧ respondsOk px t u ∧
      exec (.tpk (some px)) u = .next v ∧ exec .tst v = .next x ∧ respondsOk w v x) ∧
  (∀ (s : State) (px : List Byte), px.length = 64 →
    ∃ t u res, exec (.tpk (some px)) s = .next t ∧ exec .tunpk t = .next u ∧ respondsOk res t u ∧
      res.map BitVec.toNat = px.map (fun v => pixelValue s.params.pixOvf v.toNat) ∧
      ((∀ v ∈ px, v.toNat ≤ 15) → res = px))

/-- PG's tile operations as the pseudo-instructions (R129, 30_encoding.md R70): TDEC answers the pixels of the 32 bytes
sent, TENC the packing of the 64 pixels sent, and TCOPY is TLD. When the first of two commands faults, without a payload
or on its length, the second still runs and answers OK from the tile as it was (60_exceptions.md R166). -/
def Obligations.PseudoInstructionsDecodeAndEncodeTiles : Prop :=
  (∀ (s : State) (w : List Byte) (hw : w.length = 32),
    ∃ t res, execAll (expandTdec (some w)) s = .next t ∧ t.tile.toList = w ∧ onlyTile s t ∧
      answersTwo 0x00 0x00 res s t ∧ res.length = 64 ∧
      ∀ k, (hk : k < 32) → res[2 * k]? = some (w[k] >>> 4) ∧ res[2 * k + 1]? = some (w[k] &&& 0x0F)) ∧
  (∀ (s : State) (px : Vector Byte 64),
    ∃ t, execAll (expandTenc (some px.toList)) s = .next t ∧ t.tile = tilePack s.params.pixOvf px ∧ onlyTile s t ∧
      answersTwo 0x00 0x00 (tilePack s.params.pixOvf px).toList s t) ∧
  (∀ (s : State) (pay : Payload) (ca : Byte),
    (pay = none ∧ ca = 0x01) ∨ (∃ w, pay = some w ∧ w.length ≠ 32 ∧ ca = 0x02) →
    ∃ t, execAll (expandTdec pay) s = .next t ∧ faultRecorded 0x01 ca s t ∧
      answersTwo 0x01 ca (tileUnpack s.tile).toList s t) ∧
  (∀ (s : State) (pay : Payload) (ca : Byte),
    (pay = none ∧ ca = 0x01) ∨ (∃ w, pay = some w ∧ w.length ≠ 64 ∧ ca = 0x02) →
    ∃ t, execAll (expandTenc pay) s = .next t ∧ faultRecorded 0x01 ca s t ∧ answersTwo 0x01 ca s.tile.toList s t) ∧
  (∀ (s : State) (pay : Payload), execAll (expandTcopy pay) s = exec (.tld pay) s)

/-! ## Mapping family (43_mapping.md) -/

/-- Round trips and bit isolation of the mapping codec (R143): (a) a bijection; (b) changing one field changes only that
field's bits; (c) changing the tile index never changes bits 7:3 of byte 0. -/
def Obligations.MappingCodecBijectionAndIsolation : Prop :=
  (∀ e : MapEntry, mapdec (mapenc e).1 (mapenc e).2 = e) ∧
  (∀ byte0 byte1 : Byte, mapenc (mapdec byte0 byte1) = (byte0, byte1)) ∧
  (∀ (e : MapEntry) (tile : BitVec 11) (pal : BitVec 2) (vf hf pri : BitVec 1),
    (((mapenc { e with pri := pri }).1 ^^^ (mapenc e).1) &&& 0x7F = 0 ∧ (mapenc { e with pri := pri }).2 = (mapenc e).2) ∧
    (((mapenc { e with pal := pal }).1 ^^^ (mapenc e).1) &&& 0x9F = 0 ∧ (mapenc { e with pal := pal }).2 = (mapenc e).2) ∧
    (((mapenc { e with vf := vf }).1 ^^^ (mapenc e).1) &&& 0xEF = 0 ∧ (mapenc { e with vf := vf }).2 = (mapenc e).2) ∧
    (((mapenc { e with hf := hf }).1 ^^^ (mapenc e).1) &&& 0xF7 = 0 ∧ (mapenc { e with hf := hf }).2 = (mapenc e).2) ∧
    ((mapenc { e with tile := tile }).1 ^^^ (mapenc e).1) &&& 0xF8 = 0)

/-- MDEC (R144, R140): completes when both bytes at the offset lie in the payload, and MAP's fields are their 16 bits;
NULL_INPUT without a payload, RANGE when they do not. -/
def Obligations.MdecDecodesEntryAtOffset : Prop :=
  ∀ (s : State) (off : BitVec 16),
    (∀ pay, encode (.mdec off pay) = packetOf 0x40 pay [0, 0, off.extractLsb' 8 8, off.extractLsb' 0 8]) ∧
    (∀ (bytes : List Byte) (h : off.toNat + 1 < bytes.length),
      ∃ t e, exec (.mdec off (some bytes)) s = .next t ∧ t.mapE = some e ∧
        entryWord e = bytes[off.toNat] ++ bytes[off.toNat + 1] ∧ onlyMap s t ∧ respondsOk [] s t) ∧
    faultsAs 0x01 0x01 s (exec (.mdec off none) s) ∧
    (∀ bytes : List Byte, off.toNat + 1 ≥ bytes.length → faultsAs 0x01 0x04 s (exec (.mdec off (some bytes)) s))

/-- MENC (R145, R141): completes when MAP holds an entry and answers its 16 bits, high byte first; NULL_OBJECT when it
holds none. -/
def Obligations.MencAnswersEntry : Prop :=
  ∀ s : State,
    encode .menc = packetOf 0x41 none [0, 0, 0, 0] ∧
    (∀ e, s.mapE = some e →
      ∃ t byte0 byte1, exec .menc s = .next t ∧ respondsOk [byte0, byte1] s t ∧ byte0 ++ byte1 = entryWord e ∧
        onlyResponds s t) ∧
    (s.mapE = none → faultsAs 0x01 0x05 s (exec .menc s))

/-- MMK (R146, R142): completes under `MAP_OVF = TRUNCATE`, and under either setting when `t` and `p` fit, with the low
bits of `t` and `p` and the flags as given; under `MAP_OVF = FAULT` an over-wide `t` or `p` is OVERFLOW. -/
def Obligations.MmkConstructsEntry : Prop :=
  ∀ (s : State) (t : BitVec 16) (p : Byte) (vf hf pri : BitVec 1),
    encode (.mmk t p vf hf pri) =
      packetOf 0x42 none [0#5 ++ pri ++ hf ++ vf, p, t.extractLsb' 8 8, t.extractLsb' 0 8] ∧
    (s.params.mapOvf = .truncate ∨ (t.toNat ≤ 2047 ∧ p.toNat ≤ 3) →
      ∃ u e, exec (.mmk t p vf hf pri) s = .next u ∧ u.mapE = some e ∧ e.tile.toNat = t.toNat &&& 0x7FF ∧
        e.pal.toNat = p.toNat &&& 0x03 ∧ e.vf = vf ∧ e.hf = hf ∧ e.pri = pri ∧ onlyMap s u ∧ respondsOk [] s u) ∧
    (s.params.mapOvf = .fault → (t.toNat > 2047 ∨ p.toNat > 3) →
      faultsAs 0x01 0x06 s (exec (.mmk t p vf hf pri) s))

/-- What the mapping family guarantees together (R147), with PG's own example. -/
def Obligations.MappingFamilyRoundTrips : Prop :=
  (∀ s : State,
    ∃ t u v, exec (.mmk 5 2 1 0 1) s = .next t ∧ exec .menc t = .next u ∧ respondsOk [0xD0, 0x05] t u ∧
      exec (.mdec 0 (some [0xD0, 0x05])) u = .next v ∧ v.mapE = t.mapE) ∧
  (∀ s : State, ∃ t u, exec (.mmk 5 2 1 1 1) s = .next t ∧ exec .menc t = .next u ∧ respondsOk [0xD8, 0x05] t u) ∧
  (∀ (s : State) (w0 w1 : Byte),
    ∃ t u, exec (.mdec 0 (some [w0, w1])) s = .next t ∧ exec .menc t = .next u ∧ respondsOk [w0, w1] t u)

/-! ## The whole machine -/

/-- Every step keeps the invariant (10_state.md R22 a, R25, R28 with 60_exceptions.md R161, 30_encoding.md R67), from
every state that has it. -/
def Obligations.StepKeepsInvariant : Prop :=
  ∀ s t : State, StateInv s → step s = .next t → StateInv t

/-- The invariant holds right after reset. -/
def Obligations.ResetMeetsInvariant : Prop := StateInv State.reset

/-- Every command ends, in every state, with exactly one response; an OK one leaves STAT, any other is the fault
response of R165: no object register written, STAT recorded, no result bytes (60_exceptions.md R165, 10_state.md R28,
70_reset_and_hazards.md R183). -/
def Obligations.EveryCommandEndsOkOrFaultsWhole : Prop :=
  ∀ (i : Instr) (s : State), ∃ t r, exec i s = .next t ∧ t.outbox = s.outbox ++ [r] ∧
    ((wordStatus r.word = 0x00 ∧ t.stat = s.stat) ∨
      (wordStatus r.word ≠ 0x00 ∧ faultsAs (wordStatus r.word) (wordCause r.word) s (exec i s)))

/-- Which commands write which register (10_state.md R23, R25, R26, R27), over all seventeen: a colour register only CQ,
CDEC and CDECX with it as destination, PAL only PDEC and PLD, TILE only TLD, TPK and TCLR, MAP only MDEC and MMK; and
no command changes the parameters or the host's coming moves. -/
def Obligations.OnlyConstructingCommandsWriteRegisters : Prop :=
  ∀ (i : Instr) (s t : State), exec i s = .next t →
    (∀ j, readColour t j ≠ readColour s j →
      (∃ r g b, i = .cq j r g b) ∨ (∃ pay, i = .cdec j pay) ∨ (∃ idx pay, i = .cdecx j idx pay)) ∧
    (t.pal ≠ s.pal →
      (∃ pay, i = .pdecF pay) ∨ (∃ pay, i = .pdecV pay) ∨ (∃ n, i = .pldF n) ∨ (∃ n, i = .pldV n)) ∧
    (t.tile ≠ s.tile → (∃ pay, i = .tld pay) ∨ (∃ pay, i = .tpk pay) ∨ i = .tclr) ∧
    (t.mapE ≠ s.mapE → (∃ off pay, i = .mdec off pay) ∨ (∃ a p vf hf pri, i = .mmk a p vf hf pri)) ∧
    t.params = s.params ∧ t.inbox = s.inbox

/-- No step but the reset input makes a register hold no value again (10_state.md R37). -/
def Obligations.ValidityIsLostOnlyByReset : Prop :=
  ∀ s t : State, step s = .next t → (∀ ms, s.inbox ≠ .reset :: ms) →
    (∀ i, (readColour s i).isSome → (readColour t i).isSome) ∧ (s.pal.isSome → t.pal.isSome) ∧
    (s.mapE.isSome → t.mapE.isSome)

/-- `FLT` stays set until reset (60_exceptions.md R166, 10_state.md R28). -/
def Obligations.FaultRecordIsSticky : Prop :=
  ∀ s t : State, step s = .next t → (∀ ms, s.inbox ≠ .reset :: ms) →
    statFlt s.stat = true → statFlt t.stat = true

/-- What a command does to the registers and what it answers do not depend on STAT, on the responses before or on the
packets to come (10_state.md R28, R32; 60_exceptions.md R166): a faulting command before it makes no difference. -/
def Obligations.CommandIgnoresFaultRecord : Prop :=
  ∀ (i : Instr) (s s' : State), sameObjects s s' → s'.params = s.params →
    ∃ t t' r, exec i s = .next t ∧ exec i s' = .next t' ∧ sameObjects t t' ∧
      t.outbox = s.outbox ++ [r] ∧ t'.outbox = s'.outbox ++ [r] ∧
      ((t.stat = s.stat ∧ t'.stat = s'.stat) ∨ t'.stat = t.stat)

/-- The same packet twice in a row gives the same state and the same response the second time (20_memory.md R50). -/
def Obligations.SameCommandTwiceIsIdempotent : Prop :=
  ∀ (i : Instr) (s t : State), exec i s = .next t →
    ∃ u r, exec i t = .next u ∧ sameObjects t u ∧ u.stat = t.stat ∧
      t.outbox = s.outbox ++ [r] ∧ u.outbox = t.outbox ++ [r]

/-- A run since reset is clean exactly while every response is OK (70_reset_and_hazards.md R185, 60_exceptions.md R172):
no step but the reset input breaks the equivalence. -/
def Obligations.CleanExactlyWhileAllResponsesOk : Prop :=
  ∀ s t : State, step s = .next t → (∀ ms, s.inbox ≠ .reset :: ms) →
    (clean s ↔ ∀ r ∈ s.outbox, wordStatus r.word = 0x00) →
    (clean t ↔ ∀ r ∈ t.outbox, wordStatus r.word = 0x00)

/-- A stream of packets runs as the commands applied one after another, in order of issue, as functions of the state
(20_memory.md R53, 10_state.md R31, 70_reset_and_hazards.md R185). -/
def Obligations.StreamRunsInIssueOrder : Prop :=
  ∀ (is : List Instr) (s : State) (ms : List HostMove),
    (∀ i ∈ is, i.WellFormed) → s.inbox = sendBytes (is.flatMap encode) ++ ms →
    core.run is.length s = execAll is (withInbox ms s)

/-- A run of commands always ends, with one response for each, whatever state it starts in (70_reset_and_hazards.md R183,
R185; 60_exceptions.md R166). -/
def Obligations.EveryRunEndsWithOneResponsePerCommand : Prop :=
  ∀ (is : List Instr) (s : State), ∃ t rs, execAll is s = .next t ∧ t.outbox = s.outbox ++ rs ∧ rs.length = is.length

/-- Objects are copies (10_state.md R29; 70_reset_and_hazards.md R182): through a whole run, a register keeps its object
unless a command that constructs into that very register is in the run. -/
def Obligations.ObjectsAreCopies : Prop :=
  ∀ (is : List Instr) (s t : State), execAll is s = .next t →
    (∀ j, (∀ i ∈ is, ∀ r g b pay idx, i ≠ .cq j r g b ∧ i ≠ .cdec j pay ∧ i ≠ .cdecx j idx pay) →
      readColour t j = readColour s j) ∧
    ((∀ i ∈ is, ∀ pay n, i ≠ .pdecF pay ∧ i ≠ .pdecV pay ∧ i ≠ .pldF n ∧ i ≠ .pldV n) → t.pal = s.pal) ∧
    ((∀ i ∈ is, ∀ pay, i ≠ .tld pay ∧ i ≠ .tpk pay ∧ i ≠ .tclr) → t.tile = s.tile) ∧
    ((∀ i ∈ is, ∀ off pay a p vf hf pri, i ≠ .mdec off pay ∧ i ≠ .mmk a p vf hf pri) → t.mapE = s.mapE)

/-- What the observation port shows (10_state.md R36): every field of a register that holds a value as it is, whatever
the unspecified fields show. And the unspecified fields (R21, R24, R35; 93_implementation_defined.md N1), of a colour
register, PAL or MAP that holds no value and of PAL's slots at and above `cnt`, may show any values `v` at all, all of
them at once. The free argument of `observe` stands for what they show (log entry 7). -/
def Obligations.PortShowsEveryDefinedField : Prop :=
  ∀ s : State,
    (∀ any : PortView,
      (∀ i, (hi : i < 32) → (observe any s).colV[i] = (s.col[i]).isSome ∧
        ∀ c, s.col[i] = some c → (observe any s).col[i] = c) ∧
      (observe any s).pv = s.pal.isSome ∧
      (∀ p, s.pal = some p → p.cnt ≤ 16 →
        (observe any s).cnt.toNat = p.cnt ∧ ∀ k, (hk : k < 16) → ∀ c, p.ent[k]? = some c → (observe any s).ent[k] = c) ∧
      (observe any s).tile = s.tile ∧ (observe any s).mv = s.mapE.isSome ∧
      (∀ e, s.mapE = some e → (observe any s).mapE = e) ∧ (observe any s).stat = s.stat) ∧
    (∀ v : PortView, ∃ any,
      (∀ i, (hi : i < 32) → s.col[i] = none → (observe any s).col[i] = v.col[i]) ∧
      (s.pal = none → (observe any s).cnt = v.cnt ∧ (observe any s).ent = v.ent) ∧
      (∀ p, s.pal = some p → ∀ k, (hk : k < 16) → p.cnt ≤ k → (observe any s).ent[k] = v.ent[k]) ∧
      (s.mapE = none → (observe any s).mapE = v.mapE))

/-- Whatever line is assembled (30_encoding.md R69, R70), every command of it is one some packet carries. That a byte list
LEN cannot count (R61) is rejected is the model's choice (log entry 10). -/
def Obligations.AssembledCommandsFitPackets : Prop :=
  ∀ (line : List Char) (is : List Instr), assembleLine line = some is →
    ∀ i ∈ is, i.WellFormed ∧ decode (encode i) = .instr i []
end

