-- ==== Sys2Proof/Laws/Asm.lean ====
section
/-! SUPPORT. What each piece of the assembler makes has a payload that `LEN` can count (spec 30_encoding.md R61, R69; log
entry 10). -/

namespace Sys2Proof.Machine

/-- An operand whose payload, if it is one, `LEN` can count. -/
def fits : Operand → Prop
  | .reg _ => True
  | .num _ => True
  | .pay p => payloadFits p = true

theorem operand_fits {ts : List Token} {o : Operand} (h : operand ts = some o) : fits o := by
  unfold operand at h
  split at h
  · cases h; rfl
  · simp only [Option.bind_eq_some_iff, Option.map_eq_some_iff] at h
    obtain ⟨v, -, r, -, rfl⟩ := h; trivial
  · simp only [Option.map_eq_some_iff] at h
    obtain ⟨v, -, rfl⟩ := h; trivial
  · simp only [Option.bind_eq_some_iff] at h
    obtain ⟨bytes, -, h⟩ := h
    unfold payloadOperand at h
    split at h
    · cases h; simpa [fits, payloadFits] using ‹_›
    · cases h
  · cases h

theorem operandList_fits : ∀ {gs : List (List Token)} {os : List Operand},
    operandList gs = some os → ∀ o ∈ os, fits o
  | [], os, h => by simp [operandList] at h; subst h; simp
  | g :: gs, os, h => by
    unfold operandList at h
    split at h
    · next o os' h1 h2 =>
      cases h
      simp only [List.mem_cons, forall_eq_or_imp]
      exact ⟨operand_fits h1, operandList_fits h2⟩
    · cases h

theorem operands_fits {ts : List Token} {os : List Operand} (h : operands ts = some os) : ∀ o ∈ os, fits o := by
  cases ts with
  | nil => simp [operands] at h; subst h; simp
  | cons t ts => exact operandList_fits h

/-- Every command of the list has a payload that LEN can count. -/
def allFit (o : Option (List Instr)) : Prop := ∀ is, o = some is → ∀ i ∈ is, i.WellFormed

theorem asmMmk_allFit (os : List Operand) : allFit (asmMmk os) := by
  intro is h
  unfold asmMmk at h
  split at h
  all_goals
    simp only [Option.bind_eq_bind, Option.bind_eq_some_iff, Option.some.injEq, reduceCtorEq] at h
  · obtain ⟨_, _, rfl⟩ := h; simp [expandMmk, Instr.WellFormed, Instr.payload, payloadFits]
  · obtain ⟨_, _, _, _, rfl⟩ := h; simp [expandMmk, Instr.WellFormed, Instr.payload, payloadFits]
  · obtain ⟨_, _, _, _, _, _, _, _, rfl⟩ := h; simp [expandMmk, Instr.WellFormed, Instr.payload, payloadFits]
  · obtain ⟨_, _, _, _, _, _, _, _, _, _, rfl⟩ := h; simp [expandMmk, Instr.WellFormed, Instr.payload, payloadFits]

theorem payloadForm_allFit (m : List Char) {mk : Payload → List Instr}
    (hk : ∀ p, payloadFits p = true → ∀ i ∈ mk p, i.WellFormed) {os : List Operand} (hf : ∀ o ∈ os, fits o) :
    allFit ((payloadForm m mk).2 os) := by
  intro is h
  simp only [payloadForm] at h
  split at h
  · cases h; exact hk _ (hf (.pay _) (by simp))
  · cases h

theorem plainForm_allFit (m : List Char) {i : Instr} (hi : i.WellFormed) (os : List Operand) :
    allFit ((plainForm m i).2 os) := by
  intro is h
  simp only [plainForm] at h
  split at h
  · cases h; simpa using hi
  · cases h

theorem countForm_allFit (m : List Char) {mk : BitVec 6 → Instr} (hi : ∀ n, (mk n).WellFormed) (os : List Operand) :
    allFit ((countForm m mk).2 os) := by
  intro is h
  simp only [countForm] at h
  split at h
  · simp only [Option.bind_eq_bind, Option.bind_eq_some_iff, Option.some.injEq] at h
    obtain ⟨n, -, rfl⟩ := h; simpa using hi n
  · cases h

end Sys2Proof.Machine
end

