-- ==== Sys2Proof/Laws/Codec.lean ====
section
/-! SUPPORT. The header bit by bit: its fields read back what `mkHeader` put there, its eight bytes make it again, and
the fixed bits of each row of spec 30_encoding.md R64 are those the encoder writes. -/

namespace Sys2Proof

/-- The header is its eight bytes, most significant first (R60). -/
theorem joinHeader_headerBytes (h : BitVec 64) :
    joinHeader (h.extractLsb' 56 8) (h.extractLsb' 48 8) (h.extractLsb' 40 8) (h.extractLsb' 32 8)
      (h.extractLsb' 24 8) (h.extractLsb' 16 8) (h.extractLsb' 8 8) (h.extractLsb' 0 8) = h := by
  apply BitVec.eq_of_getLsbD_eq
  intro i hi
  simp only [joinHeader, BitVec.getLsbD_append, BitVec.getLsbD_extractLsb']
  interval_cases i <;> simp

theorem decode_headerBytes (h : BitVec 64) (rest : List Byte) : decode (headerBytes h ++ rest) = decodeBody h rest := by
  simp only [headerBytes, List.cons_append, List.nil_append, decode, joinHeader_headerBytes]

@[simp] theorem headerBytes_length (h : BitVec 64) : (headerBytes h).length = 8 := rfl

/-! ## The four fields every header has -/

@[simp] theorem opcOf_mkHeader (opc : BitVec 8) (p : Bool) (len : BitVec 16) (arg : BitVec 32) :
    opcOf (mkHeader opc p len arg) = opc := by
  apply BitVec.eq_of_getLsbD_eq
  intro i hi
  simp only [opcOf, mkHeader, BitVec.getLsbD_append, BitVec.getLsbD_extractLsb']
  interval_cases i <;> simp

@[simp] theorem lenOf_mkHeader (opc : BitVec 8) (p : Bool) (len : BitVec 16) (arg : BitVec 32) :
    lenOf (mkHeader opc p len arg) = len := by
  apply BitVec.eq_of_getLsbD_eq
  intro i hi
  simp only [lenOf, mkHeader, BitVec.getLsbD_append, BitVec.getLsbD_extractLsb']
  interval_cases i <;> simp

@[simp] theorem pOf_mkHeader (opc : BitVec 8) (p : Bool) (len : BitVec 16) (arg : BitVec 32) :
    pOf (mkHeader opc p len arg) = p := by
  simp only [pOf, mkHeader, BitVec.getLsbD_append]
  simp

/-! ## The operand fields of each format (R62) -/

@[simp] theorem argReg_argOfReg (opc : BitVec 8) (p : Bool) (len : BitVec 16) (cd : RegNo) :
    argReg (mkHeader opc p len (argOfReg cd)) = cd := by
  apply BitVec.eq_of_getLsbD_eq
  intro i hi
  simp only [argReg, argOfReg, mkHeader, BitVec.getLsbD_append, BitVec.getLsbD_extractLsb']
  interval_cases i <;> simp

@[simp] theorem argReg_argOfRegHalf (opc : BitVec 8) (p : Bool) (len : BitVec 16) (cd : RegNo) (idx : BitVec 16) :
    argReg (mkHeader opc p len (argOfRegHalf cd idx)) = cd := by
  apply BitVec.eq_of_getLsbD_eq
  intro i hi
  simp only [argReg, argOfRegHalf, mkHeader, BitVec.getLsbD_append, BitVec.getLsbD_extractLsb']
  interval_cases i <;> simp

@[simp] theorem argHalf_argOfRegHalf (opc : BitVec 8) (p : Bool) (len : BitVec 16) (cd : RegNo) (idx : BitVec 16) :
    argHalf (mkHeader opc p len (argOfRegHalf cd idx)) = idx := by
  apply BitVec.eq_of_getLsbD_eq
  intro i hi
  simp only [argHalf, argOfRegHalf, mkHeader, BitVec.getLsbD_append, BitVec.getLsbD_extractLsb']
  interval_cases i <;> simp

@[simp] theorem argReg_argOfRgb (opc : BitVec 8) (p : Bool) (len : BitVec 16) (cd : RegNo) (r g b : Byte) :
    argReg (mkHeader opc p len (argOfRgb cd r g b)) = cd := by
  apply BitVec.eq_of_getLsbD_eq
  intro i hi
  simp only [argReg, argOfRgb, mkHeader, BitVec.getLsbD_append, BitVec.getLsbD_extractLsb']
  interval_cases i <;> simp

@[simp] theorem argByte2_argOfRgb (opc : BitVec 8) (p : Bool) (len : BitVec 16) (cd : RegNo) (r g b : Byte) :
    argByte2 (mkHeader opc p len (argOfRgb cd r g b)) = r := by
  apply BitVec.eq_of_getLsbD_eq
  intro i hi
  simp only [argByte2, argOfRgb, mkHeader, BitVec.getLsbD_append, BitVec.getLsbD_extractLsb']
  interval_cases i <;> simp

@[simp] theorem argByte1_argOfRgb (opc : BitVec 8) (p : Bool) (len : BitVec 16) (cd : RegNo) (r g b : Byte) :
    argByte1 (mkHeader opc p len (argOfRgb cd r g b)) = g := by
  apply BitVec.eq_of_getLsbD_eq
  intro i hi
  simp only [argByte1, argOfRgb, mkHeader, BitVec.getLsbD_append, BitVec.getLsbD_extractLsb']
  interval_cases i <;> simp

@[simp] theorem argByte0_argOfRgb (opc : BitVec 8) (p : Bool) (len : BitVec 16) (cd : RegNo) (r g b : Byte) :
    argByte0 (mkHeader opc p len (argOfRgb cd r g b)) = b := by
  apply BitVec.eq_of_getLsbD_eq
  intro i hi
  simp only [argByte0, argOfRgb, mkHeader, BitVec.getLsbD_append, BitVec.getLsbD_extractLsb']
  interval_cases i <;> simp

@[simp] theorem argCount_argOfCount (opc : BitVec 8) (p : Bool) (len : BitVec 16) (n : BitVec 6) :
    argCount (mkHeader opc p len (argOfCount n)) = n := by
  apply BitVec.eq_of_getLsbD_eq
  intro i hi
  simp only [argCount, argOfCount, mkHeader, BitVec.getLsbD_append, BitVec.getLsbD_extractLsb']
  interval_cases i <;> simp

@[simp] theorem argHalf_argOfHalf (opc : BitVec 8) (p : Bool) (len : BitVec 16) (off : BitVec 16) :
    argHalf (mkHeader opc p len (argOfHalf off)) = off := by
  apply BitVec.eq_of_getLsbD_eq
  intro i hi
  simp only [argHalf, argOfHalf, mkHeader, BitVec.getLsbD_append, BitVec.getLsbD_extractLsb']
  interval_cases i <;> simp

@[simp] theorem argHalf_argOfMap (opc : BitVec 8) (p : Bool) (len : BitVec 16) (t : BitVec 16) (q : Byte) (vf hf pri : BitVec 1) :
    argHalf (mkHeader opc p len (argOfMap t q vf hf pri)) = t := by
  apply BitVec.eq_of_getLsbD_eq
  intro i hi
  simp only [argHalf, argOfMap, mkHeader, BitVec.getLsbD_append, BitVec.getLsbD_extractLsb']
  interval_cases i <;> simp

@[simp] theorem argByte2_argOfMap (opc : BitVec 8) (p : Bool) (len : BitVec 16) (t : BitVec 16) (q : Byte) (vf hf pri : BitVec 1) :
    argByte2 (mkHeader opc p len (argOfMap t q vf hf pri)) = q := by
  apply BitVec.eq_of_getLsbD_eq
  intro i hi
  simp only [argByte2, argOfMap, mkHeader, BitVec.getLsbD_append, BitVec.getLsbD_extractLsb']
  interval_cases i <;> simp

@[simp] theorem argVf_argOfMap (opc : BitVec 8) (p : Bool) (len : BitVec 16) (t : BitVec 16) (q : Byte) (vf hf pri : BitVec 1) :
    argVf (mkHeader opc p len (argOfMap t q vf hf pri)) = vf := by
  apply BitVec.eq_of_getLsbD_eq
  intro i hi
  simp only [argVf, argOfMap, mkHeader, BitVec.getLsbD_append, BitVec.getLsbD_extractLsb']
  interval_cases i
  simp

@[simp] theorem argHf_argOfMap (opc : BitVec 8) (p : Bool) (len : BitVec 16) (t : BitVec 16) (q : Byte) (vf hf pri : BitVec 1) :
    argHf (mkHeader opc p len (argOfMap t q vf hf pri)) = hf := by
  apply BitVec.eq_of_getLsbD_eq
  intro i hi
  simp only [argHf, argOfMap, mkHeader, BitVec.getLsbD_append, BitVec.getLsbD_extractLsb']
  interval_cases i
  simp

@[simp] theorem argPri_argOfMap (opc : BitVec 8) (p : Bool) (len : BitVec 16) (t : BitVec 16) (q : Byte) (vf hf pri : BitVec 1) :
    argPri (mkHeader opc p len (argOfMap t q vf hf pri)) = pri := by
  apply BitVec.eq_of_getLsbD_eq
  intro i hi
  simp only [argPri, argOfMap, mkHeader, BitVec.getLsbD_append, BitVec.getLsbD_extractLsb']
  interval_cases i
  simp

/-! ## The fixed bits of each row (R64) -/

theorem fixed_cq (cd : RegNo) (r g b : Byte) :
    mkHeader 0x10#8 false 0 (argOfRgb cd r g b) &&& 0xFFFFFFFFE0000000#64 = 0x1000000000000000#64 := by
  apply BitVec.eq_of_getLsbD_eq
  intro i hi
  simp only [argOfRgb, mkHeader, BitVec.getLsbD_append, BitVec.getLsbD_and]
  interval_cases i <;> simp

theorem fixed_cdec (p : Bool) (len : BitVec 16) (cd : RegNo) :
    mkHeader 0x11#8 p len (argOfReg cd) &&& 0xFF7F0000E0FFFFFF#64 = 0x1100000000000000#64 := by
  apply BitVec.eq_of_getLsbD_eq
  intro i hi
  simp only [argOfReg, mkHeader, BitVec.getLsbD_append, BitVec.getLsbD_and]
  interval_cases i <;> simp

theorem fixed_cdecx (p : Bool) (len : BitVec 16) (cd : RegNo) (idx : BitVec 16) :
    mkHeader 0x12#8 p len (argOfRegHalf cd idx) &&& 0xFF7F0000E0FF0000#64 = 0x1200000000000000#64 := by
  apply BitVec.eq_of_getLsbD_eq
  intro i hi
  simp only [argOfRegHalf, mkHeader, BitVec.getLsbD_append, BitVec.getLsbD_and]
  interval_cases i <;> simp

theorem fixed_cenc (cs : RegNo) :
    mkHeader 0x13#8 false 0 (argOfReg cs) &&& 0xFFFFFFFFE0FFFFFF#64 = 0x1300000000000000#64 := by
  apply BitVec.eq_of_getLsbD_eq
  intro i hi
  simp only [argOfReg, mkHeader, BitVec.getLsbD_append, BitVec.getLsbD_and]
  interval_cases i <;> simp

theorem fixed_pdecF (p : Bool) (len : BitVec 16) :
    mkHeader 0x20#8 p len 0 &&& 0xFF7F0000FFFFFFFF#64 = 0x2000000000000000#64 := by
  apply BitVec.eq_of_getLsbD_eq
  intro i hi
  simp only [mkHeader, BitVec.getLsbD_append, BitVec.getLsbD_and]
  interval_cases i <;> simp

theorem fixed_pdecV (p : Bool) (len : BitVec 16) :
    mkHeader 0x21#8 p len 0 &&& 0xFF7F0000FFFFFFFF#64 = 0x2100000000000000#64 := by
  apply BitVec.eq_of_getLsbD_eq
  intro i hi
  simp only [mkHeader, BitVec.getLsbD_append, BitVec.getLsbD_and]
  interval_cases i <;> simp

theorem fixed_tld (p : Bool) (len : BitVec 16) :
    mkHeader 0x30#8 p len 0 &&& 0xFF7F0000FFFFFFFF#64 = 0x3000000000000000#64 := by
  apply BitVec.eq_of_getLsbD_eq
  intro i hi
  simp only [mkHeader, BitVec.getLsbD_append, BitVec.getLsbD_and]
  interval_cases i <;> simp

theorem fixed_tpk (p : Bool) (len : BitVec 16) :
    mkHeader 0x31#8 p len 0 &&& 0xFF7F0000FFFFFFFF#64 = 0x3100000000000000#64 := by
  apply BitVec.eq_of_getLsbD_eq
  intro i hi
  simp only [mkHeader, BitVec.getLsbD_append, BitVec.getLsbD_and]
  interval_cases i <;> simp

theorem fixed_pldF (n : BitVec 6) :
    mkHeader 0x22#8 false 0 (argOfCount n) &&& 0xFFFFFFFFFFFFFFC0#64 = 0x2200000000000000#64 := by
  apply BitVec.eq_of_getLsbD_eq
  intro i hi
  simp only [argOfCount, mkHeader, BitVec.getLsbD_append, BitVec.getLsbD_and]
  interval_cases i <;> simp

theorem fixed_pldV (n : BitVec 6) :
    mkHeader 0x23#8 false 0 (argOfCount n) &&& 0xFFFFFFFFFFFFFFC0#64 = 0x2300000000000000#64 := by
  apply BitVec.eq_of_getLsbD_eq
  intro i hi
  simp only [argOfCount, mkHeader, BitVec.getLsbD_append, BitVec.getLsbD_and]
  interval_cases i <;> simp

theorem fixed_mdec (p : Bool) (len : BitVec 16) (off : BitVec 16) :
    mkHeader 0x40#8 p len (argOfHalf off) &&& 0xFF7F0000FFFF0000#64 = 0x4000000000000000#64 := by
  apply BitVec.eq_of_getLsbD_eq
  intro i hi
  simp only [argOfHalf, mkHeader, BitVec.getLsbD_append, BitVec.getLsbD_and]
  interval_cases i <;> simp

theorem fixed_mmk (t : BitVec 16) (q : Byte) (vf hf pri : BitVec 1) :
    mkHeader 0x42#8 false 0 (argOfMap t q vf hf pri) &&& 0xFFFFFFFFF8000000#64 = 0x4200000000000000#64 := by
  apply BitVec.eq_of_getLsbD_eq
  intro i hi
  simp only [argOfMap, mkHeader, BitVec.getLsbD_append, BitVec.getLsbD_and]
  interval_cases i <;> simp

/-! ## And the other way: a header with a row's fixed bits is the one the encoder makes of its fields -/

theorem getLsbD_of_fixed {h m f : BitVec 64} (hm : h &&& m = f) (k : Nat) :
    (h.getLsbD k && m.getLsbD k) = f.getLsbD k := by
  rw [← hm, BitVec.getLsbD_and]

theorem rebuild_cq (h : BitVec 64) (hm : h &&& 0xFFFFFFFFE0000000#64 = 0x1000000000000000#64) :
    mkHeader 0x10#8 false 0 (argOfRgb (argReg h) (argByte2 h) (argByte1 h) (argByte0 h)) = h := by
  apply BitVec.eq_of_getLsbD_eq
  intro i hi
  have hb := getLsbD_of_fixed hm i
  simp only [mkHeader, argOfRgb, argReg, argByte2, argByte1, argByte0, BitVec.getLsbD_append, BitVec.getLsbD_extractLsb']
  interval_cases i <;> simp at hb ⊢ <;> first | done | exact hb

theorem rebuild_cdec (h : BitVec 64) (hm : h &&& 0xFF7F0000E0FFFFFF#64 = 0x1100000000000000#64) :
    mkHeader 0x11#8 (pOf h) (lenOf h) (argOfReg (argReg h)) = h := by
  apply BitVec.eq_of_getLsbD_eq
  intro i hi
  have hb := getLsbD_of_fixed hm i
  simp only [mkHeader, argOfReg, argReg, pOf, lenOf, BitVec.getLsbD_append, BitVec.getLsbD_extractLsb']
  interval_cases i <;> simp at hb ⊢ <;> first | done | exact hb

theorem rebuild_cdecx (h : BitVec 64) (hm : h &&& 0xFF7F0000E0FF0000#64 = 0x1200000000000000#64) :
    mkHeader 0x12#8 (pOf h) (lenOf h) (argOfRegHalf (argReg h) (argHalf h)) = h := by
  apply BitVec.eq_of_getLsbD_eq
  intro i hi
  have hb := getLsbD_of_fixed hm i
  simp only [mkHeader, argOfRegHalf, argReg, argHalf, pOf, lenOf, BitVec.getLsbD_append, BitVec.getLsbD_extractLsb']
  interval_cases i <;> simp at hb ⊢ <;> first | done | exact hb

theorem rebuild_cenc (h : BitVec 64) (hm : h &&& 0xFFFFFFFFE0FFFFFF#64 = 0x1300000000000000#64) :
    mkHeader 0x13#8 false 0 (argOfReg (argReg h)) = h := by
  apply BitVec.eq_of_getLsbD_eq
  intro i hi
  have hb := getLsbD_of_fixed hm i
  simp only [mkHeader, argOfReg, argReg, BitVec.getLsbD_append, BitVec.getLsbD_extractLsb']
  interval_cases i <;> simp at hb ⊢ <;> first | done | exact hb

theorem rebuild_pdecF (h : BitVec 64) (hm : h &&& 0xFF7F0000FFFFFFFF#64 = 0x2000000000000000#64) :
    mkHeader 0x20#8 (pOf h) (lenOf h) 0 = h := by
  apply BitVec.eq_of_getLsbD_eq
  intro i hi
  have hb := getLsbD_of_fixed hm i
  simp only [mkHeader, pOf, lenOf, BitVec.getLsbD_append, BitVec.getLsbD_extractLsb']
  interval_cases i <;> simp at hb ⊢ <;> first | done | exact hb

theorem rebuild_pdecV (h : BitVec 64) (hm : h &&& 0xFF7F0000FFFFFFFF#64 = 0x2100000000000000#64) :
    mkHeader 0x21#8 (pOf h) (lenOf h) 0 = h := by
  apply BitVec.eq_of_getLsbD_eq
  intro i hi
  have hb := getLsbD_of_fixed hm i
  simp only [mkHeader, pOf, lenOf, BitVec.getLsbD_append, BitVec.getLsbD_extractLsb']
  interval_cases i <;> simp at hb ⊢ <;> first | done | exact hb

theorem rebuild_tld (h : BitVec 64) (hm : h &&& 0xFF7F0000FFFFFFFF#64 = 0x3000000000000000#64) :
    mkHeader 0x30#8 (pOf h) (lenOf h) 0 = h := by
  apply BitVec.eq_of_getLsbD_eq
  intro i hi
  have hb := getLsbD_of_fixed hm i
  simp only [mkHeader, pOf, lenOf, BitVec.getLsbD_append, BitVec.getLsbD_extractLsb']
  interval_cases i <;> simp at hb ⊢ <;> first | done | exact hb

theorem rebuild_tpk (h : BitVec 64) (hm : h &&& 0xFF7F0000FFFFFFFF#64 = 0x3100000000000000#64) :
    mkHeader 0x31#8 (pOf h) (lenOf h) 0 = h := by
  apply BitVec.eq_of_getLsbD_eq
  intro i hi
  have hb := getLsbD_of_fixed hm i
  simp only [mkHeader, pOf, lenOf, BitVec.getLsbD_append, BitVec.getLsbD_extractLsb']
  interval_cases i <;> simp at hb ⊢ <;> first | done | exact hb

theorem rebuild_pldF (h : BitVec 64) (hm : h &&& 0xFFFFFFFFFFFFFFC0#64 = 0x2200000000000000#64) :
    mkHeader 0x22#8 false 0 (argOfCount (argCount h)) = h := by
  apply BitVec.eq_of_getLsbD_eq
  intro i hi
  have hb := getLsbD_of_fixed hm i
  simp only [mkHeader, argOfCount, argCount, BitVec.getLsbD_append, BitVec.getLsbD_extractLsb']
  interval_cases i <;> simp at hb ⊢ <;> first | done | exact hb

theorem rebuild_pldV (h : BitVec 64) (hm : h &&& 0xFFFFFFFFFFFFFFC0#64 = 0x2300000000000000#64) :
    mkHeader 0x23#8 false 0 (argOfCount (argCount h)) = h := by
  apply BitVec.eq_of_getLsbD_eq
  intro i hi
  have hb := getLsbD_of_fixed hm i
  simp only [mkHeader, argOfCount, argCount, BitVec.getLsbD_append, BitVec.getLsbD_extractLsb']
  interval_cases i <;> simp at hb ⊢ <;> first | done | exact hb

theorem rebuild_mdec (h : BitVec 64) (hm : h &&& 0xFF7F0000FFFF0000#64 = 0x4000000000000000#64) :
    mkHeader 0x40#8 (pOf h) (lenOf h) (argOfHalf (argHalf h)) = h := by
  apply BitVec.eq_of_getLsbD_eq
  intro i hi
  have hb := getLsbD_of_fixed hm i
  simp only [mkHeader, argOfHalf, argHalf, pOf, lenOf, BitVec.getLsbD_append, BitVec.getLsbD_extractLsb']
  interval_cases i <;> simp at hb ⊢ <;> first | done | exact hb

theorem rebuild_mmk (h : BitVec 64) (hm : h &&& 0xFFFFFFFFF8000000#64 = 0x4200000000000000#64) :
    mkHeader 0x42#8 false 0 (argOfMap (argHalf h) (argByte2 h) (argVf h) (argHf h) (argPri h)) = h := by
  apply BitVec.eq_of_getLsbD_eq
  intro i hi
  have hb := getLsbD_of_fixed hm i
  simp only [mkHeader, argOfMap, argHalf, argByte2, argVf, argHf, argPri, BitVec.getLsbD_append, BitVec.getLsbD_extractLsb']
  interval_cases i <;> simp at hb ⊢ <;> first | done | exact hb

/-! ## One row at a time -/

/-- A header whose opcode selects a row and whose fixed bits are the row's decodes to the row's command, unless it has
`P = 0` and a `LEN` (R65). -/
theorem decodeHeader_of_row {h : BitVec 64} {pay : List Byte} (opc : BitVec 8) {row : Row} (ho : opcOf h = opc)
    (hf : rows.find? (fun r => r.opc == opc) = some row) (hm : h &&& row.mask = row.fixed)
    (hp : pOf h = true ∨ lenOf h = 0) :
    decodeHeader h pay = .ok (row.build h (if pOf h then some pay else none)) := by
  subst ho
  unfold decodeHeader
  rw [hf]
  rcases hp with hp | hp <;> simp [hm, hp]

/-- What a legal header says, said backwards (R65 step 4). -/
theorem row_of_decodeHeader {h : BitVec 64} {pay : List Byte} {i : Instr} (hd : decodeHeader h pay = .ok i) :
    ∃ row, rows.find? (fun r => r.opc == opcOf h) = some row ∧ h &&& row.mask = row.fixed ∧
      (pOf h = true ∨ lenOf h = 0) ∧ i = row.build h (if pOf h then some pay else none) := by
  unfold decodeHeader at hd
  split at hd
  · simp at hd
  · next row hrow =>
    refine ⟨row, hrow, ?_⟩
    split at hd
    · simp at hd
    · next hm =>
      split at hd
      · simp at hd
      · next hp =>
        simp only [Except.ok.injEq] at hd
        refine ⟨by simpa using hm, ?_, hd.symm⟩
        by_cases h1 : pOf h
        · exact .inl h1
        · exact .inr (by simpa [h1] using hp)

/-- Only the two causes of IllegalCommand come from decoding (60_exceptions.md R160, R161). -/
theorem cause_of_decodeHeader {h : BitVec 64} {pay : List Byte} {c : Cause} (hd : decodeHeader h pay = .error c) :
    c = .opcode ∨ c = .field := by
  unfold decodeHeader at hd
  split at hd
  · left; simpa using hd.symm
  · split at hd
    · right; simpa using hd.symm
    · split at hd
      · right; simpa using hd.symm
      · simp at hd

/-! ## Payload lengths -/

/-- A payload that fits has its own length in `LEN` (R61). -/
theorem payLen_toNat {pay : Payload} (h : payloadFits pay = true) : (payLen pay).toNat = (pay.getD []).length := by
  cases pay with
  | none => rfl
  | some bytes =>
    simp only [payloadFits, decide_eq_true_eq, Config.maxPayload] at h
    simp only [payLen, Option.getD_some, BitVec.toNat_ofNat]
    omega

end Sys2Proof
end

