-- ==== Sys2Proof/Laws/State.lean ====
section
/-! SUPPORT. One lemma per field of `State` per named update, each true by unfolding, so that no later proof unfolds a
record update; and reading a colour register back. -/

namespace Sys2Proof.Machine

variable (s : State)

@[simp] theorem writeColour_col (i : RegNo) (v : Colour) : (writeColour i v s).col = s.col.set i.toNat (some v) := rfl
@[simp] theorem writeColour_pal (i : RegNo) (v : Colour) : (writeColour i v s).pal = s.pal := rfl
@[simp] theorem writeColour_tile (i : RegNo) (v : Colour) : (writeColour i v s).tile = s.tile := rfl
@[simp] theorem writeColour_mapE (i : RegNo) (v : Colour) : (writeColour i v s).mapE = s.mapE := rfl
@[simp] theorem writeColour_stat (i : RegNo) (v : Colour) : (writeColour i v s).stat = s.stat := rfl
@[simp] theorem writeColour_params (i : RegNo) (v : Colour) : (writeColour i v s).params = s.params := rfl
@[simp] theorem writeColour_inbox (i : RegNo) (v : Colour) : (writeColour i v s).inbox = s.inbox := rfl
@[simp] theorem writeColour_outbox (i : RegNo) (v : Colour) : (writeColour i v s).outbox = s.outbox := rfl

@[simp] theorem writePal_col (p : Palette) : (writePal p s).col = s.col := rfl
@[simp] theorem writePal_pal (p : Palette) : (writePal p s).pal = some p := rfl
@[simp] theorem writePal_tile (p : Palette) : (writePal p s).tile = s.tile := rfl
@[simp] theorem writePal_mapE (p : Palette) : (writePal p s).mapE = s.mapE := rfl
@[simp] theorem writePal_stat (p : Palette) : (writePal p s).stat = s.stat := rfl
@[simp] theorem writePal_params (p : Palette) : (writePal p s).params = s.params := rfl
@[simp] theorem writePal_inbox (p : Palette) : (writePal p s).inbox = s.inbox := rfl
@[simp] theorem writePal_outbox (p : Palette) : (writePal p s).outbox = s.outbox := rfl

@[simp] theorem writeTile_col (t : Vector Byte 32) : (writeTile t s).col = s.col := rfl
@[simp] theorem writeTile_pal (t : Vector Byte 32) : (writeTile t s).pal = s.pal := rfl
@[simp] theorem writeTile_tile (t : Vector Byte 32) : (writeTile t s).tile = t := rfl
@[simp] theorem writeTile_mapE (t : Vector Byte 32) : (writeTile t s).mapE = s.mapE := rfl
@[simp] theorem writeTile_stat (t : Vector Byte 32) : (writeTile t s).stat = s.stat := rfl
@[simp] theorem writeTile_params (t : Vector Byte 32) : (writeTile t s).params = s.params := rfl
@[simp] theorem writeTile_inbox (t : Vector Byte 32) : (writeTile t s).inbox = s.inbox := rfl
@[simp] theorem writeTile_outbox (t : Vector Byte 32) : (writeTile t s).outbox = s.outbox := rfl

@[simp] theorem writeMap_col (e : MapEntry) : (writeMap e s).col = s.col := rfl
@[simp] theorem writeMap_pal (e : MapEntry) : (writeMap e s).pal = s.pal := rfl
@[simp] theorem writeMap_tile (e : MapEntry) : (writeMap e s).tile = s.tile := rfl
@[simp] theorem writeMap_mapE (e : MapEntry) : (writeMap e s).mapE = some e := rfl
@[simp] theorem writeMap_stat (e : MapEntry) : (writeMap e s).stat = s.stat := rfl
@[simp] theorem writeMap_params (e : MapEntry) : (writeMap e s).params = s.params := rfl
@[simp] theorem writeMap_inbox (e : MapEntry) : (writeMap e s).inbox = s.inbox := rfl
@[simp] theorem writeMap_outbox (e : MapEntry) : (writeMap e s).outbox = s.outbox := rfl

@[simp] theorem issue_col (r : Response) : (issue r s).col = s.col := rfl
@[simp] theorem issue_pal (r : Response) : (issue r s).pal = s.pal := rfl
@[simp] theorem issue_tile (r : Response) : (issue r s).tile = s.tile := rfl
@[simp] theorem issue_mapE (r : Response) : (issue r s).mapE = s.mapE := rfl
@[simp] theorem issue_stat (r : Response) : (issue r s).stat = s.stat := rfl
@[simp] theorem issue_params (r : Response) : (issue r s).params = s.params := rfl
@[simp] theorem issue_inbox (r : Response) : (issue r s).inbox = s.inbox := rfl
@[simp] theorem issue_outbox (r : Response) : (issue r s).outbox = s.outbox ++ [r] := rfl

@[simp] theorem withInbox_col (ms : List HostMove) : (withInbox ms s).col = s.col := rfl
@[simp] theorem withInbox_pal (ms : List HostMove) : (withInbox ms s).pal = s.pal := rfl
@[simp] theorem withInbox_tile (ms : List HostMove) : (withInbox ms s).tile = s.tile := rfl
@[simp] theorem withInbox_mapE (ms : List HostMove) : (withInbox ms s).mapE = s.mapE := rfl
@[simp] theorem withInbox_stat (ms : List HostMove) : (withInbox ms s).stat = s.stat := rfl
@[simp] theorem withInbox_params (ms : List HostMove) : (withInbox ms s).params = s.params := rfl
@[simp] theorem withInbox_inbox (ms : List HostMove) : (withInbox ms s).inbox = ms := rfl
@[simp] theorem withInbox_outbox (ms : List HostMove) : (withInbox ms s).outbox = s.outbox := rfl

@[simp] theorem resetInput_col : (resetInput s).col = Vector.replicate 32 none := rfl
@[simp] theorem resetInput_pal : (resetInput s).pal = none := rfl
@[simp] theorem resetInput_tile : (resetInput s).tile = blankTile := rfl
@[simp] theorem resetInput_mapE : (resetInput s).mapE = none := rfl
@[simp] theorem resetInput_stat : (resetInput s).stat = 0#32 := rfl
@[simp] theorem resetInput_params : (resetInput s).params = s.params := rfl
@[simp] theorem resetInput_inbox : (resetInput s).inbox = s.inbox := rfl
@[simp] theorem resetInput_outbox : (resetInput s).outbox = s.outbox := rfl

theorem readColour_congr {s t : State} (h : t.col = s.col) (i : RegNo) : readColour t i = readColour s i := by
  simp [readColour, h]

@[simp] theorem readColour_writePal (p : Palette) (i : RegNo) : readColour (writePal p s) i = readColour s i := rfl
@[simp] theorem readColour_writeTile (t : Vector Byte 32) (i : RegNo) :
    readColour (writeTile t s) i = readColour s i := rfl
@[simp] theorem readColour_writeMap (e : MapEntry) (i : RegNo) : readColour (writeMap e s) i = readColour s i := rfl
@[simp] theorem readColour_issue (r : Response) (i : RegNo) : readColour (issue r s) i = readColour s i := rfl
@[simp] theorem readColour_withInbox (ms : List HostMove) (i : RegNo) :
    readColour (withInbox ms s) i = readColour s i := rfl

@[simp] theorem readColour_resetInput (i : RegNo) : readColour (resetInput s) i = none := by
  simp [readColour]

/-- A colour register reads back what was last written to it (spec 10_state.md R23). -/
@[simp] theorem readColour_writeColour_self (i : RegNo) (v : Colour) : readColour (writeColour i v s) i = some v := by
  simp [readColour]

/-- Writing one colour register leaves every other alone. -/
theorem readColour_writeColour_ne {i j : RegNo} (v : Colour) (h : j ≠ i) :
    readColour (writeColour i v s) j = readColour s j := by
  have : i.toNat ≠ j.toNat := fun e => h (BitVec.eq_of_toNat_eq e.symm)
  simp [readColour, this]

/-- Reading after a write, in one lemma. -/
theorem readColour_writeColour (i j : RegNo) (v : Colour) :
    readColour (writeColour i v s) j = if j = i then some v else readColour s j := by
  split
  · next h => subst h; simp
  · next h => exact readColour_writeColour_ne s v h

end Sys2Proof.Machine
end

