-- ==== Sys2Proof/Laws/Ops.lean ====
section
/-! SUPPORT. What each shared operation can do, said once: how a command ends, the operand forms, and the one inversion
lemma of `exec`. -/

namespace Sys2Proof.Machine

open Sys2Proof.Safety

variable {s t : State}

/-! ## Endings -/

theorem respond_eq (res : List Byte) (s : State) : respond res s = .next (issue (okResponse res) s) := rfl

theorem raiseFault_eq (c : Cause) (s : State) :
    raiseFault c s = .next (issue (faultResponse c) { s with stat := faultStat c }) := rfl

@[simp] theorem okResponse_res (res : List Byte) : (okResponse res).res = res := rfl

@[simp] theorem faultResponse_res (c : Cause) : (faultResponse c).res = [] := rfl

@[simp] theorem wordStatus_responseWord (st ca : Byte) (n : BitVec 16) : wordStatus (responseWord st ca n) = st := by
  ext i hi
  simp only [wordStatus, responseWord, BitVec.getElem_extractLsb', BitVec.getLsbD_append]
  rw [if_neg (by omega), if_neg (by omega), show 24 + i - 16 - 8 = i by omega, BitVec.getLsbD_eq_getElem]

@[simp] theorem wordCause_responseWord (st ca : Byte) (n : BitVec 16) : wordCause (responseWord st ca n) = ca := by
  ext i hi
  simp only [wordCause, responseWord, BitVec.getElem_extractLsb', BitVec.getLsbD_append]
  rw [if_neg (by omega), if_pos (by omega), show 16 + i - 16 = i by omega, BitVec.getLsbD_eq_getElem]

@[simp] theorem wordRlen_responseWord (st ca : Byte) (n : BitVec 16) : wordRlen (responseWord st ca n) = n := by
  ext i hi
  simp only [wordRlen, responseWord, BitVec.getElem_extractLsb', BitVec.getLsbD_append]
  rw [if_pos (by omega), show 0 + i = i by omega, BitVec.getLsbD_eq_getElem]

theorem statFlt_faultStat (c : Cause) : statFlt (faultStat c) = true := by cases c <;> decide

theorem statReserved_faultStat (c : Cause) : statReserved (faultStat c) = 0 := by cases c <;> decide

theorem statLst_faultStat (c : Cause) : statLst (faultStat c) = causeStatus c := by cases c <;> decide

theorem statLca_faultStat (c : Cause) : statLca (faultStat c) = causeCode c := by cases c <;> decide

theorem causeStatus_ne_ok (c : Cause) : causeStatus c ≠ 0 := by cases c <;> decide

/-- Everything a successful end does (spec 30_encoding.md R67): one OK response with these bytes. -/
theorem respondsOk_issue {res : List Byte} (hlen : res.length < 65536) (s : State) :
    respondsOk res s (issue (okResponse res) s) := by
  refine ⟨okResponse res, rfl, ?_, ?_, ?_, rfl⟩
  · simp [okResponse, statusOk]
  · simp [okResponse]
  · simpa [okResponse] using Nat.mod_eq_of_lt hlen

/-- What a fault records (spec 60_exceptions.md R165 a, b). -/
theorem faultRecorded_faultStat (c : Cause) (s : State) :
    faultRecorded (causeStatus c) (causeCode c) s (issue (faultResponse c) { s with stat := faultStat c }) :=
  ⟨⟨rfl, rfl, rfl, rfl⟩, rfl, rfl, statFlt_faultStat c, statReserved_faultStat c, statLst_faultStat c,
    statLca_faultStat c⟩

/-- Everything a fault does (spec 60_exceptions.md R165). -/
theorem faultsAs_raiseFault (c : Cause) (s : State) : faultsAs (causeStatus c) (causeCode c) s (raiseFault c s) := by
  refine ⟨_, raiseFault_eq c s, faultRecorded_faultStat c s, faultResponse c, rfl, ?_, ?_, ?_, rfl⟩
  all_goals simp [faultResponse]

/-! ## Operand forms -/

@[simp] theorem withPayload_none (s : State) (k : List Byte → Outcome) :
    withPayload none s k = raiseFault .nullInput s := rfl

@[simp] theorem withPayload_some (bytes : List Byte) (s : State) (k : List Byte → Outcome) :
    withPayload (some bytes) s k = k bytes := rfl

/-- A pair is found exactly where both its bytes are. -/
theorem pairAt_eq_some {bytes : List Byte} {k : Nat} {b0 b1 : Byte} :
    pairAt bytes k = some (b0, b1) ↔ bytes[k]? = some b0 ∧ bytes[k + 1]? = some b1 := by
  unfold pairAt
  split
  · next h0 h1 => simp [h0, h1]
  · next h =>
    refine ⟨fun h' => by simp at h', fun ⟨h0, h1⟩ => absurd h1 (h _ _ h0)⟩

/-- No pair is found exactly where its second byte lies beyond the payload (spec 20_memory.md R52). -/
theorem pairAt_eq_none {bytes : List Byte} {k : Nat} : pairAt bytes k = none ↔ bytes.length ≤ k + 1 := by
  unfold pairAt
  split
  · next h0 h1 =>
    obtain ⟨hlt, _⟩ := List.getElem?_eq_some_iff.1 h1
    simp; omega
  · next h =>
    simp only [true_iff]
    by_contra hlt
    exact h _ _ (List.getElem?_eq_getElem (by omega)) (List.getElem?_eq_getElem (by omega))

theorem exactly_eq_some {n : Nat} {bytes : List Byte} {v : Vector Byte n} :
    exactly n bytes = some v ↔ v.toList = bytes := by
  unfold exactly
  split
  · next h =>
    constructor
    · intro e
      simp only [Option.some.injEq] at e
      subst e; simp
    · intro e; subst e; congr
  · next h =>
    constructor
    · intro e; simp at e
    · intro e; subst e; simp at h

theorem exactly_eq_none {n : Nat} {bytes : List Byte} : exactly n bytes = none ↔ bytes.length ≠ n := by
  unfold exactly
  split <;> simp_all

theorem exactly_toList {n : Nat} (v : Vector Byte n) : exactly n v.toList = some v := exactly_eq_some.2 rfl

theorem allPresent_eq_some {α : Type} : ∀ {l : List (Option α)} {as : List α},
    allPresent l = some as ↔ l = as.map some
  | [], as => by
    cases as <;> simp [allPresent]
  | none :: l, as => by
    cases as <;> simp [allPresent]
  | some a :: l, as => by
    cases as with
    | nil => simp [allPresent]
    | cons b bs =>
      simp only [allPresent, Option.map_eq_some_iff, List.cons.injEq, List.map_cons, Option.some.injEq]
      constructor
      · rintro ⟨cs, h, rfl, rfl⟩
        exact ⟨rfl, allPresent_eq_some.1 h⟩
      · rintro ⟨rfl, h⟩
        exact ⟨bs, allPresent_eq_some.2 h, rfl, rfl⟩

theorem allPresent_eq_none {α : Type} : ∀ {l : List (Option α)}, allPresent l = none ↔ none ∈ l
  | [] => by simp [allPresent]
  | none :: l => by simp [allPresent]
  | some a :: l => by simp [allPresent, allPresent_eq_none (l := l)]

/-- A collection is found exactly where all its registers hold a value, and holds them in order (41_palette.md R105,
R106). -/
theorem collection_eq_some {n : Nat} (hn : n ≤ 32) {cs : List Colour} :
    collection n s = some cs ↔
      cs.length = n ∧ ∀ k, (hk : k < n) → cs[k]? = readColour s (BitVec.ofNat 5 k) ∧ cs[k]?.isSome := by
  rw [collection, allPresent_eq_some]
  constructor
  · intro h
    have hl : cs.length = n := by
      have := congrArg List.length h
      simp at this; omega
    refine ⟨hl, fun k hk => ?_⟩
    have hk' := congrArg (fun l => l[k]?) h
    simp only [List.getElem?_map, List.getElem?_take, hk, if_true] at hk'
    rw [List.getElem?_eq_getElem (by omega : k < cs.length)] at hk' ⊢
    rw [List.getElem?_eq_getElem (by simp; omega)] at hk'
    simp only [Vector.getElem_toList, Option.map_some, Option.some.injEq] at hk'
    refine ⟨?_, rfl⟩
    simp only [readColour, BitVec.toNat_ofNat]
    rw [← hk']
    congr 1
    omega
  · rintro ⟨hl, h⟩
    apply List.ext_getElem?
    intro k
    by_cases hk : k < n
    · obtain ⟨h1, h2⟩ := h k hk
      rw [List.getElem?_take, if_pos hk, List.getElem?_map, List.getElem?_eq_getElem (by simp; omega)]
      rw [List.getElem?_eq_getElem (by omega : k < cs.length)] at h1 ⊢
      simp only [readColour, BitVec.toNat_ofNat] at h1
      simp only [Vector.getElem_toList, Option.map_some, Option.some.injEq]
      rw [h1]
      congr 1
      omega
    · rw [List.getElem?_eq_none (by simp; omega), List.getElem?_eq_none (by simp; omega)]

theorem collection_eq_none {n : Nat} (hn : n ≤ 32) :
    collection n s = none ↔ ∃ k, k < n ∧ readColour s (BitVec.ofNat 5 k) = none := by
  rw [collection, allPresent_eq_none, List.mem_iff_getElem?]
  constructor
  · rintro ⟨k, h⟩
    rw [List.getElem?_take] at h
    split at h
    · next hk =>
      refine ⟨k, hk, ?_⟩
      rw [List.getElem?_eq_getElem (by simp; omega)] at h
      simp only [Vector.getElem_toList, Option.some.injEq] at h
      simp only [readColour, BitVec.toNat_ofNat]
      rw [← h]; congr 1; omega
    · simp at h
  · rintro ⟨k, hk, h⟩
    refine ⟨k, ?_⟩
    rw [List.getElem?_take, if_pos hk, List.getElem?_eq_getElem (by simp; omega)]
    simp only [readColour, BitVec.toNat_ofNat] at h
    simp only [Vector.getElem_toList, Option.some.injEq]
    rw [← h]; congr 1; omega

end Sys2Proof.Machine
end

