-- ==== Sys2Proof/Laws/Exec.lean ====
section
/-! SUPPORT. The one inversion lemma of `exec`: everything a command can do, with what each end carries. -/

namespace Sys2Proof.Machine

open Sys2Proof.Safety

/-- The colour register a command writes when it ends OK (spec 10_state.md R23). -/
def colourDest : Instr → Option RegNo
  | .cq cd _ _ _ => some cd
  | .cdec cd _ => some cd
  | .cdecx cd _ _ => some cd
  | .cenc _ => none
  | .pdecF _ => none
  | .pdecV _ => none
  | .pldF _ => none
  | .pldV _ => none
  | .penc => none
  | .tld _ => none
  | .tpk _ => none
  | .tunpk => none
  | .tst => none
  | .tclr => none
  | .mdec _ _ => none
  | .menc => none
  | .mmk _ _ _ _ _ => none

theorem colourLegal_coldec (b0 b1 : Byte) : colourLegal (coldec b0 b1) := by
  revert b1
  simp only [colourLegal, coldec]
  decide

theorem colourLegal_quantised (r g b : Byte) :
    colourLegal ⟨quantise r, quantise g, (quantise b).setWidth 8⟩ := by
  simp only [colourLegal]
  revert r
  decide

theorem slotColours_legal : ∀ (bytes : List Byte), ∀ c ∈ slotColours bytes, colourLegal c
  | [], c, h => by simp [slotColours] at h
  | [_], c, h => by simp [slotColours] at h
  | b0 :: b1 :: rest, c, h => by
    simp only [slotColours, List.mem_cons] at h
    rcases h with rfl | h
    · exact colourLegal_coldec b0 b1
    · exact slotColours_legal rest c h

theorem slotColours_length : ∀ (bytes : List Byte), (slotColours bytes).length = bytes.length / 2
  | [] => by simp [slotColours]
  | [_] => by simp [slotColours]
  | b0 :: b1 :: rest => by
    simp only [slotColours, List.length_cons, slotColours_length rest]
    omega

/-- How the command `i` ends in the state `s`. -/
inductive Ends (i : Instr) (s : State) : Outcome → Prop
  /-- a fault response -/
  | fault (c : Cause) : Ends i s (raiseFault c s)
  /-- a response and no register written; its bytes are at most 64, or PAL's -/
  | answer (res : List Byte) (h : res.length ≤ 64 ∨ ∃ p, s.pal = some p ∧ res = palenc p) : Ends i s (respond res s)
  /-- a colour register written -/
  | colour (cd : RegNo) (v : Colour) (hd : colourDest i = some cd) (h : colourLegal v) :
      Ends i s (respond [] (writeColour cd v s))
  /-- PAL written, its colours decoded or copied from registers -/
  | palette (p : Palette)
      (hi : (∃ pay, i = .pdecF pay) ∨ (∃ pay, i = .pdecV pay) ∨ (∃ n, i = .pldF n) ∨ (∃ n, i = .pldV n))
      (hc : p.cnt ≤ 16) (h : ∀ c ∈ p.ent, colourLegal c ∨ ∃ j, readColour s j = some c) :
      Ends i s (respond [] (writePal p s))
  /-- TILE written -/
  | tile (v : Vector Byte 32) (hi : (∃ pay, i = .tld pay) ∨ (∃ pay, i = .tpk pay) ∨ i = .tclr) :
      Ends i s (respond [] (writeTile v s))
  /-- MAP written -/
  | entry (e : MapEntry) (hi : (∃ off pay, i = .mdec off pay) ∨ (∃ t p vf hf pri, i = .mmk t p vf hf pri)) :
      Ends i s (respond [] (writeMap e s))

theorem loadCollection_ends {n : Nat} (hn : n ≤ 16) {i : Instr} {s : State}
    (hi : (∃ pay, i = .pdecF pay) ∨ (∃ pay, i = .pdecV pay) ∨ (∃ n, i = .pldF n) ∨ (∃ n, i = .pldV n)) :
    Ends i s (loadCollection n s) := by
  unfold loadCollection
  split
  · next cs h =>
    obtain ⟨hl, hk⟩ := (collection_eq_some (by omega)).1 h
    refine .palette _ hi (by simpa [Palette.cnt, hl] using hn) fun c hc => ?_
    obtain ⟨k, hk'⟩ := List.mem_iff_getElem?.1 hc
    have hlt : k < n := by
      obtain ⟨h, _⟩ := List.getElem?_eq_some_iff.1 hk'
      simp only at h; omega
    exact .inr ⟨_, ((hk k hlt).1.symm.trans hk')⟩
  · exact .fault _

/-- Every command ends in one of the ways of `Ends`, in every state. -/
theorem exec_ends (i : Instr) (s : State) : Ends i s (exec i s) := by
  cases i with
  | cq cd r g b => exact .colour cd _ rfl (colourLegal_quantised r g b)
  | cdec cd pay =>
    cases pay with
    | none => exact .fault _
    | some bytes =>
      simp only [exec, execCdec, withPayload_some]
      split
      · exact .colour cd _ rfl (colourLegal_coldec _ _)
      · exact .fault _
  | cdecx cd idx pay =>
    cases pay with
    | none => exact .fault _
    | some bytes =>
      simp only [exec, execCdecx, withPayload_some]
      split
      · exact .colour cd _ rfl (colourLegal_coldec _ _)
      · exact .fault _
  | cenc cs =>
    simp only [exec, execCenc]
    split
    · exact .answer _ (.inl (by simp [colourBytes]))
    · exact .fault _
  | pdecF pay =>
    cases pay with
    | none => exact .fault _
    | some bytes =>
      simp only [exec, execPdecF, withPayload_some]
      split
      · next h =>
        refine .palette _ (.inl ⟨_, rfl⟩) ?_ fun c hc => .inl (slotColours_legal _ c hc)
        simp only [Palette.cnt, paldec, slotColours_length]
        simp only [Config.palBytesMax] at h
        omega
      · exact .fault _
  | pdecV pay =>
    cases pay with
    | none => exact .fault _
    | some bytes =>
      simp only [exec, execPdecV, withPayload_some]
      split
      · exact .fault _
      · next h =>
        refine .palette _ (.inr (.inl ⟨_, rfl⟩)) ?_ fun c hc => .inl (slotColours_legal _ c hc)
        simp only [Palette.cnt, paldec, slotColours_length]
        simp only [Config.palBytesMax] at h
        omega
  | pldF n =>
    simp only [exec, execPldF]
    split
    · exact .fault _
    · split
      · exact .fault _
      · exact loadCollection_ends (by simp) (.inr (.inr (.inl ⟨_, rfl⟩)))
  | pldV n =>
    simp only [exec, execPldV]
    split
    · exact .fault _
    · next h => exact loadCollection_ends (by simpa using h) (.inr (.inr (.inr ⟨_, rfl⟩)))
  | penc =>
    simp only [exec, execPenc]
    split
    · next p hp => exact .answer _ (.inr ⟨p, hp, rfl⟩)
    · exact .fault _
  | tld pay =>
    cases pay with
    | none => exact .fault _
    | some bytes =>
      simp only [exec, execTld, withPayload_some]
      split
      · exact .tile _ (.inl ⟨_, rfl⟩)
      · exact .fault _
  | tpk pay =>
    cases pay with
    | none => exact .fault _
    | some bytes =>
      simp only [exec, execTpk, withPayload_some]
      split
      · exact .tile _ (.inr (.inl ⟨_, rfl⟩))
      · exact .fault _
  | tunpk => exact .answer _ (.inl (by simp))
  | tst => exact .answer _ (.inl (by simp))
  | tclr => exact .tile _ (.inr (.inr rfl))
  | mdec off pay =>
    cases pay with
    | none => exact .fault _
    | some bytes =>
      simp only [exec, execMdec, withPayload_some]
      split
      · exact .entry _ (.inl ⟨_, _, rfl⟩)
      · exact .fault _
  | menc =>
    simp only [exec, execMenc]
    split
    · exact .answer _ (.inl (by simp [mapBytes]))
    · exact .fault _
  | mmk t p vf hf pri =>
    simp only [exec, execMmk]
    split
    · exact .entry _ (.inr ⟨_, _, _, _, _, rfl⟩)
    · exact .fault _

theorem palenc_length (p : Palette) : (palenc p).length = 2 * p.cnt := by
  simp [palenc, colourBytes, Palette.cnt, List.length_flatMap]
  omega

end Sys2Proof.Machine
end

