-- ==== Sys2Proof/Laws/Fetch.lean ====
section
/-! SUPPORT. The host's stream: what `splitBytes` and `fetch` do on a packet followed by anything. -/

namespace Sys2Proof.Machine

@[simp] theorem sendBytes_nil : sendBytes [] = [] := rfl

theorem sendBytes_append (a b : List Byte) : sendBytes (a ++ b) = sendBytes a ++ sendBytes b := by
  simp [sendBytes]

/-- Taking the bytes off the front and putting them back is no change. -/
theorem splitBytes_join : ∀ ms : List HostMove, sendBytes (splitBytes ms).1 ++ (splitBytes ms).2 = ms
  | [] => rfl
  | .reset :: _ => rfl
  | .byte b :: ms => by
    have := splitBytes_join ms
    simpa [splitBytes, sendBytes] using this

theorem splitBytes_sendBytes (bytes : List Byte) (ms : List HostMove) :
    splitBytes (sendBytes bytes ++ ms) = (bytes ++ (splitBytes ms).1, (splitBytes ms).2) := by
  induction bytes with
  | nil => rfl
  | cons b bs ih => simp only [sendBytes, List.map_cons, List.cons_append, splitBytes] at ih ⊢; rw [ih]

theorem fetch_sendBytes {bytes : List Byte} (h : bytes ≠ []) (ms : List HostMove) :
    fetch (sendBytes bytes ++ ms) = fetchPacket (bytes ++ (splitBytes ms).1) (splitBytes ms).2 := by
  cases bytes with
  | nil => exact absurd rfl h
  | cons b bs =>
    have := splitBytes_sendBytes (b :: bs) ms
    simp only [sendBytes, List.map_cons, List.cons_append] at this ⊢
    simp only [fetch, this]

/-! ## Longer streams -/

theorem decodeBody_append {h : BitVec 64} {bytes : List Byte} (hl : (lenOf h).toNat ≤ bytes.length)
    (more : List Byte) :
    decodeBody h (bytes ++ more) =
      match decodeHeader h (bytes.take (lenOf h).toNat) with
      | .ok i => .instr i (bytes.drop (lenOf h).toNat ++ more)
      | .error c => .illegal c (bytes.drop (lenOf h).toNat ++ more) := by
  have hnot : ¬ (bytes ++ more).length < (lenOf h).toNat := by simp; omega
  cases hd : decodeHeader h (bytes.take (lenOf h).toNat) <;>
    simp only [decodeBody, if_neg hnot, List.take_append_of_le_length hl, List.drop_append_of_le_length hl, hd]

/-- Bytes that decode to a command decode to it whatever follows them. -/
theorem decode_append_instr {bytes : List Byte} {i : Instr} {rest : List Byte} (h : decode bytes = .instr i rest)
    (more : List Byte) : decode (bytes ++ more) = .instr i (rest ++ more) := by
  match bytes, h with
  | b7 :: b6 :: b5 :: b4 :: b3 :: b2 :: b1 :: b0 :: tail, h =>
    simp only [decode, List.cons_append] at h ⊢
    by_cases hl : (lenOf (joinHeader b7 b6 b5 b4 b3 b2 b1 b0)).toNat ≤ tail.length
    · have h0 := decodeBody_append hl []
      rw [List.append_nil] at h0
      rw [decodeBody_append hl more]
      rw [h0] at h
      split at h
      · simp only [List.append_nil, Decoded.instr.injEq] at h
        obtain ⟨rfl, rfl⟩ := h; simp [*]
      · simp at h
    · rw [decodeBody, if_pos (by omega)] at h; simp at h

/-- Bytes that are an illegal packet are that packet whatever follows them. -/
theorem decode_append_illegal {bytes : List Byte} {c : Cause} {rest : List Byte} (h : decode bytes = .illegal c rest)
    (more : List Byte) : decode (bytes ++ more) = .illegal c (rest ++ more) := by
  match bytes, h with
  | b7 :: b6 :: b5 :: b4 :: b3 :: b2 :: b1 :: b0 :: tail, h =>
    simp only [decode, List.cons_append] at h ⊢
    by_cases hl : (lenOf (joinHeader b7 b6 b5 b4 b3 b2 b1 b0)).toNat ≤ tail.length
    · have h0 := decodeBody_append hl []
      rw [List.append_nil] at h0
      rw [decodeBody_append hl more]
      rw [h0] at h
      split at h
      · simp at h
      · simp only [List.append_nil, Decoded.illegal.injEq] at h
        obtain ⟨rfl, rfl⟩ := h; simp [*]
    · rw [decodeBody, if_pos (by omega)] at h; simp at h

theorem decode_ne_nil {bytes : List Byte} (h : decode bytes ≠ .short) : bytes ≠ [] := by
  rintro rfl; exact h rfl

theorem fetchPacket_of_instr {bytes : List Byte} {i : Instr} {rest : List Byte} (h : decode bytes = .instr i rest)
    (after : List HostMove) : fetchPacket bytes after = .command i (sendBytes rest ++ after) := by
  simp [fetchPacket, h]

theorem fetchPacket_of_illegal {bytes : List Byte} {c : Cause} {rest : List Byte} (h : decode bytes = .illegal c rest)
    (after : List HostMove) : fetchPacket bytes after = .illegal c (sendBytes rest ++ after) := by
  simp [fetchPacket, h]

/-- A legal packet at the front of the host's moves is the next command, whatever moves follow. -/
theorem fetch_of_instr {bytes : List Byte} {i : Instr} (h : decode bytes = .instr i []) (ms : List HostMove) :
    fetch (sendBytes bytes ++ ms) = .command i ms := by
  rw [fetch_sendBytes (decode_ne_nil (by simp [h])),
    fetchPacket_of_instr (decode_append_instr h _), List.nil_append, splitBytes_join]

/-- An illegal packet at the front of the host's moves is turned away whole, whatever moves follow. -/
theorem fetch_of_illegal {bytes : List Byte} {c : Cause} (h : decode bytes = .illegal c []) (ms : List HostMove) :
    fetch (sendBytes bytes ++ ms) = .illegal c ms := by
  rw [fetch_sendBytes (decode_ne_nil (by simp [h])),
    fetchPacket_of_illegal (decode_append_illegal h _), List.nil_append, splitBytes_join]

end Sys2Proof.Machine
end

