-- ==== Sys2Proof/Laws/Packet.lean ====
section
/-! SUPPORT. The encoder's packets byte by byte: each header as its eight bytes, each `ARG` as its four. -/

namespace Sys2Proof

open Sys2Proof.Safety

theorem headerBytes_mkHeader (opc : BitVec 8) (p : Bool) (len : BitVec 16) (arg : BitVec 32) :
    headerBytes (mkHeader opc p len arg) =
      [opc, BitVec.ofBool p ++ 0#7, len.extractLsb' 8 8, len.extractLsb' 0 8,
        arg.extractLsb' 24 8, arg.extractLsb' 16 8, arg.extractLsb' 8 8, arg.extractLsb' 0 8] := by
  simp only [headerBytes, mkHeader, List.cons.injEq, and_true]
  refine ⟨?_, ?_, ?_, ?_, ?_, ?_, ?_, ?_⟩
  case refine_2 =>
    ext i hi
    rw [BitVec.getElem_extractLsb', ← BitVec.getLsbD_eq_getElem]
    simp only [BitVec.getLsbD_append]
    rw [if_neg (by omega), if_neg (by omega), show 48 + i - 32 - 16 = i by omega]
    split
    · rfl
    · rw [if_pos (by omega)]
  all_goals
    ext i hi
    simp only [BitVec.getElem_extractLsb', BitVec.getLsbD_append]
    repeat' split
    all_goals first
      | omega
      | (try rw [← BitVec.getLsbD_eq_getElem]); congr 1; try omega

/-- `ARG` as its four bytes. -/
def argBytes (arg : BitVec 32) : List Byte :=
  [arg.extractLsb' 24 8, arg.extractLsb' 16 8, arg.extractLsb' 8 8, arg.extractLsb' 0 8]

theorem payLen_hi (pay : Payload) :
    (payLen pay).extractLsb' 8 8 = BitVec.ofNat 8 ((pay.getD []).length / 256) := by
  apply BitVec.eq_of_toNat_eq
  simp [payLen, BitVec.extractLsb'_toNat, Nat.shiftRight_eq_div_pow]
  omega

theorem payLen_lo (pay : Payload) : (payLen pay).extractLsb' 0 8 = BitVec.ofNat 8 (pay.getD []).length := by
  apply BitVec.eq_of_toNat_eq
  simp [payLen, BitVec.extractLsb'_toNat]

/-- A header without a payload is its packet (spec 30_encoding.md R62). -/
theorem plainHeader_packet (opc : BitVec 8) (arg : BitVec 32) :
    headerBytes (plainHeader opc arg) = packetOf opc none (argBytes arg) := by
  simp [plainHeader, headerBytes_mkHeader, packetOf, argBytes]

/-- A header and its payload are its packet (R62). -/
theorem payHeader_packet (opc : BitVec 8) (pay : Payload) (arg : BitVec 32) :
    headerBytes (payHeader opc pay arg) ++ pay.getD [] = packetOf opc pay (argBytes arg) := by
  rw [payHeader, headerBytes_mkHeader, payLen_hi, payLen_lo]
  cases pay <;> simp [packetOf, argBytes]

theorem argBytes_argOfReg (cd : RegNo) :
    argBytes (argOfReg cd) = [0#3 ++ cd, 0, 0, 0] := by
  simp only [argBytes, argOfReg, List.cons.injEq, and_true]
  refine ⟨?_, ?_, ?_, ?_⟩ <;>
  · ext i hi
    rw [BitVec.getElem_extractLsb', ← BitVec.getLsbD_eq_getElem]
    simp only [BitVec.getLsbD_append, BitVec.getLsbD_extractLsb', BitVec.getLsbD_zero, BitVec.ofNat_eq_ofNat]
    repeat' split
    all_goals first | omega | (congr 1; omega) | (simp [*]; try omega)

theorem argBytes_argOfRgb (cd : RegNo) (r g b : Byte) :
    argBytes (argOfRgb cd r g b) = [0#3 ++ cd, r, g, b] := by
  simp only [argBytes, argOfRgb, List.cons.injEq, and_true]
  refine ⟨?_, ?_, ?_, ?_⟩ <;>
  · ext i hi
    rw [BitVec.getElem_extractLsb', ← BitVec.getLsbD_eq_getElem]
    simp only [BitVec.getLsbD_append, BitVec.getLsbD_extractLsb', BitVec.getLsbD_zero, BitVec.ofNat_eq_ofNat]
    repeat' split
    all_goals first | omega | (congr 1; omega) | (simp [*]; try omega)

theorem argBytes_argOfCount (n : BitVec 6) :
    argBytes (argOfCount n) = [0, 0, 0, 0#2 ++ n] := by
  simp only [argBytes, argOfCount, List.cons.injEq, and_true]
  refine ⟨?_, ?_, ?_, ?_⟩ <;>
  · ext i hi
    rw [BitVec.getElem_extractLsb', ← BitVec.getLsbD_eq_getElem]
    simp only [BitVec.getLsbD_append, BitVec.getLsbD_extractLsb', BitVec.getLsbD_zero, BitVec.ofNat_eq_ofNat]
    repeat' split
    all_goals first | omega | (congr 1; omega) | (simp [*]; try omega)

theorem argBytes_argOfMap (t : BitVec 16) (p : Byte) (vf hf pri : BitVec 1) :
    argBytes (argOfMap t p vf hf pri) = [0#5 ++ pri ++ hf ++ vf, p, t.extractLsb' 8 8, t.extractLsb' 0 8] := by
  simp only [argBytes, argOfMap, List.cons.injEq, and_true]
  refine ⟨?_, ?_, ?_, ?_⟩ <;>
  · ext i hi
    rw [BitVec.getElem_extractLsb', ← BitVec.getLsbD_eq_getElem]
    simp only [BitVec.getLsbD_append, BitVec.getLsbD_extractLsb', BitVec.getLsbD_zero, BitVec.ofNat_eq_ofNat]
    repeat' split
    all_goals first | omega | (congr 1; omega) | (simp [*]; try omega)

theorem argBytes_argOfRegHalf (cd : RegNo) (idx : BitVec 16) :
    argBytes (argOfRegHalf cd idx) = [0#3 ++ cd, 0, idx.extractLsb' 8 8, idx.extractLsb' 0 8] := by
  simp only [argBytes, argOfRegHalf, List.cons.injEq, and_true]
  refine ⟨?_, ?_, ?_, ?_⟩ <;>
  · ext i hi
    rw [BitVec.getElem_extractLsb', ← BitVec.getLsbD_eq_getElem]
    simp only [BitVec.getLsbD_append, BitVec.getLsbD_extractLsb', BitVec.getLsbD_zero, BitVec.ofNat_eq_ofNat]
    repeat' split
    all_goals first | omega | (congr 1; omega) | (simp [*]; try omega)

theorem argBytes_argOfHalf (off : BitVec 16) :
    argBytes (argOfHalf off) = [0, 0, off.extractLsb' 8 8, off.extractLsb' 0 8] := by
  simp only [argBytes, argOfHalf, List.cons.injEq, and_true]
  refine ⟨?_, ?_, ?_, ?_⟩ <;>
  · ext i hi
    rw [BitVec.getElem_extractLsb', ← BitVec.getLsbD_eq_getElem]
    simp only [BitVec.getLsbD_append, BitVec.getLsbD_extractLsb', BitVec.getLsbD_zero, BitVec.ofNat_eq_ofNat]
    repeat' split
    all_goals first | omega | (congr 1; omega) | (simp [*]; try omega)

end Sys2Proof
end

