-- ==== Sys2Proof/Laws/PerInstr.lean ====
section
/-! SUPPORT. Statements about every command as syntax, one lemma per constructor of `Instr`. -/

namespace Sys2Proof.Laws.PacketLength

open Sys2Proof

/-- A packet is `8 + LEN` bytes whatever its opcode, and its header's `P` and `LEN` announce its payload (spec
30_encoding.md R60, R61, R62). -/
def Statement (i : Instr) : Prop :=
  (encode i).length = 8 + (i.payload.getD []).length ∧ pOf (headerFor i) = i.payload.isSome ∧
    (i.WellFormed → (lenOf (headerFor i)).toNat = (i.payload.getD []).length)

theorem of_header {i : Instr} {opc : BitVec 8} {arg : BitVec 32}
    (h : headerFor i = mkHeader opc i.payload.isSome (payLen i.payload) arg) : Statement i := by
  refine ⟨by simp [encode], by simp [h], fun hw => ?_⟩
  rw [h, lenOf_mkHeader]
  exact payLen_toNat hw

theorem cq (cd : RegNo) (r g b : Byte) : Statement (.cq cd r g b) := of_header rfl
theorem cdec (cd : RegNo) (pay : Payload) : Statement (.cdec cd pay) := of_header rfl
theorem cdecx (cd : RegNo) (idx : BitVec 16) (pay : Payload) : Statement (.cdecx cd idx pay) := of_header rfl
theorem cenc (cs : RegNo) : Statement (.cenc cs) := of_header rfl
theorem pdecF (pay : Payload) : Statement (.pdecF pay) := of_header rfl
theorem pdecV (pay : Payload) : Statement (.pdecV pay) := of_header rfl
theorem pldF (n : BitVec 6) : Statement (.pldF n) := of_header rfl
theorem pldV (n : BitVec 6) : Statement (.pldV n) := of_header rfl
theorem penc : Statement .penc := of_header rfl
theorem tld (pay : Payload) : Statement (.tld pay) := of_header rfl
theorem tpk (pay : Payload) : Statement (.tpk pay) := of_header rfl
theorem tunpk : Statement .tunpk := of_header rfl
theorem tst : Statement .tst := of_header rfl
theorem tclr : Statement .tclr := of_header rfl
theorem mdec (off : BitVec 16) (pay : Payload) : Statement (.mdec off pay) := of_header rfl
theorem menc : Statement .menc := of_header rfl
theorem mmk (t : BitVec 16) (p : Byte) (vf hf pri : BitVec 1) : Statement (.mmk t p vf hf pri) := of_header rfl

end Sys2Proof.Laws.PacketLength
end

