-- ==== Sys2Proof/Laws/Step.lean ====
section
/-! SUPPORT. Everything a step can do, said once, and what the ending of a command depends on. -/

namespace Sys2Proof.Machine

open Sys2Proof.Safety

variable {s s' t : State}

/-- Only a reset at the front of the host's moves is fetched as one. -/
theorem fetch_ne_reset {moves rest : List HostMove} (h : ∀ ms, moves ≠ .reset :: ms) : fetch moves ≠ .reset rest := by
  unfold fetch
  split
  · simp
  · exact absurd rfl (h _)
  · unfold fetchPacket
    split <;> try simp
    split <;> simp

/-- A step that goes on and is not the reset input idles, or ends as some command ends. -/
theorem step_ends (h : step s = .next t) (hr : ∀ ms, s.inbox ≠ .reset :: ms) :
    t = s ∨ ∃ ms i, Ends i (withInbox ms s) (.next t) := by
  unfold step at h
  split at h
  · simp only [Host.Outcome.next.injEq] at h
    exact .inl h.symm
  · next hf => exact absurd hf (fetch_ne_reset hr)
  · next i ms _ => exact .inr ⟨ms, i, h ▸ exec_ends i _⟩
  · next c ms _ => exact .inr ⟨ms, .penc, h ▸ Ends.fault c⟩
  · simp at h
  · simp at h

/-- Two states in which a command ends alike: the same fault, or the same response after the same register update. -/
inductive SameEnd (s s' : State) : Outcome → Outcome → Prop
  /-- the same fault -/
  | fault (c : Cause) : SameEnd s s' (raiseFault c s) (raiseFault c s')
  /-- a response and no register written -/
  | answer (res : List Byte) : SameEnd s s' (respond res s) (respond res s')
  /-- a response after one register's write -/
  | colour (cd : RegNo) (v : Colour) : SameEnd s s' (respond [] (writeColour cd v s)) (respond [] (writeColour cd v s'))
  | palette (p : Palette) : SameEnd s s' (respond [] (writePal p s)) (respond [] (writePal p s'))
  | tile (v : Vector Byte 32) : SameEnd s s' (respond [] (writeTile v s)) (respond [] (writeTile v s'))
  | entry (e : MapEntry) : SameEnd s s' (respond [] (writeMap e s)) (respond [] (writeMap e s'))

theorem loadCollection_same (h : s'.col = s.col) (n : Nat) :
    SameEnd s s' (loadCollection n s) (loadCollection n s') := by
  unfold loadCollection collection
  rw [h]
  split
  · exact .palette _
  · exact .fault _

/-- A command's ending depends on the object registers and the parameters alone (spec 10_state.md R28, R32). -/
theorem exec_same (i : Instr) (h : sameObjects s s') (hp : s'.params = s.params) :
    SameEnd s s' (exec i s) (exec i s') := by
  obtain ⟨hcol, hpal, htile, hmap⟩ := h
  cases i with
  | cq cd r g b => exact .colour ..
  | cdec cd pay =>
    cases pay with
    | none => exact .fault _
    | some bytes => simp only [exec, execCdec, withPayload_some]; split; exacts [.colour .., .fault _]
  | cdecx cd idx pay =>
    cases pay with
    | none => exact .fault _
    | some bytes => simp only [exec, execCdecx, withPayload_some]; split; exacts [.colour .., .fault _]
  | cenc cs => simp only [exec, execCenc, readColour_congr hcol]; split; exacts [.answer _, .fault _]
  | pdecF pay =>
    cases pay with
    | none => exact .fault _
    | some bytes => simp only [exec, execPdecF, withPayload_some]; split; exacts [.palette _, .fault _]
  | pdecV pay =>
    cases pay with
    | none => exact .fault _
    | some bytes => simp only [exec, execPdecV, withPayload_some]; split; exacts [.fault _, .palette _]
  | pldF n =>
    simp only [exec, execPldF]
    split
    · exact .fault _
    · split
      · exact .fault _
      · exact loadCollection_same hcol _
  | pldV n =>
    simp only [exec, execPldV]
    split
    · exact .fault _
    · exact loadCollection_same hcol _
  | penc => simp only [exec, execPenc, hpal]; split; exacts [.answer _, .fault _]
  | tld pay =>
    cases pay with
    | none => exact .fault _
    | some bytes => simp only [exec, execTld, withPayload_some]; split; exacts [.tile _, .fault _]
  | tpk pay =>
    cases pay with
    | none => exact .fault _
    | some bytes => simp only [exec, execTpk, withPayload_some, hp]; split; exacts [.tile _, .fault _]
  | tunpk => simp only [exec, execTunpk, htile]; exact .answer _
  | tst => simp only [exec, execTst, htile]; exact .answer _
  | tclr => exact .tile _
  | mdec off pay =>
    cases pay with
    | none => exact .fault _
    | some bytes => simp only [exec, execMdec, withPayload_some]; split; exacts [.entry _, .fault _]
  | menc => simp only [exec, execMenc, hmap]; split; exacts [.answer _, .fault _]
  | mmk t p vf hf pri => simp only [exec, execMmk, hp]; split; exacts [.entry _, .fault _]

end Sys2Proof.Machine
end

