-- ==== Sys2Proof/Laws/Tile.lean ====
section
/-! SUPPORT. The tile codec one element at a time: what each pixel of an unpacked tile and each byte of a packed one
is, so that no later proof unfolds `tileUnpack` or `tilePack`. -/

namespace Sys2Proof.Machine

open Sys2Proof.Safety

/-- An even pixel is its byte's high nibble (spec 42_tile.md R120). -/
theorem tileUnpack_even (t : Vector Byte 32) {k : Nat} (hk : k < 32) : (tileUnpack t)[2 * k] = t[k] >>> 4 := by
  simp [tileUnpack]

/-- An odd pixel is its byte's low nibble (R120). -/
theorem tileUnpack_odd (t : Vector Byte 32) {k : Nat} (hk : k < 32) :
    (tileUnpack t)[2 * k + 1] = t[k] &&& 0x0F := by
  simp [tileUnpack, show (2 * k + 1) / 2 = k by omega]

theorem shift_or_eq_append : ∀ a b : Nibble, (a.setWidth 8 <<< 4) ||| b.setWidth 8 = (a ++ b : BitVec 8) := by decide

/-- A packed byte is its pair's two normalised pixels, the even one high (R121). -/
theorem tilePack_getElem (ovf : PixOvf) (px : Vector Byte 64) {k : Nat} (hk : k < 32) :
    (tilePack ovf px)[k] = (pixnorm ovf px[2 * k] ++ pixnorm ovf px[2 * k + 1] : BitVec 8) := by
  simp only [tilePack, Vector.getElem_ofFn]
  exact shift_or_eq_append _ _

theorem pixnorm_toNat : ∀ (ovf : PixOvf) (v : Byte), (pixnorm ovf v).toNat = pixelValue ovf v.toNat
  | .clamp => by decide
  | .mask => by decide

theorem nibbles_of_append : ∀ a b : Nibble, (a ++ b : BitVec 8) >>> 4 = a.setWidth 8 ∧
    (a ++ b : BitVec 8) &&& 0x0F = b.setWidth 8 ∧ (a ++ b : BitVec 8).toNat = 16 * a.toNat + b.toNat := by decide

/-- Unpacking what was packed gives every pixel normalised (R120 to R122). -/
theorem tileUnpack_tilePack_getElem (ovf : PixOvf) (px : Vector Byte 64) {j : Nat} (hj : j < 64) :
    (tileUnpack (tilePack ovf px))[j] = (pixnorm ovf px[j]).setWidth 8 := by
  rcases Nat.mod_two_eq_zero_or_one j with hm | hm
  · have h := tileUnpack_even (tilePack ovf px) (k := j / 2) (by omega)
    rw [tilePack_getElem, (nibbles_of_append _ _).1] at h
    simpa only [show 2 * (j / 2) = j by omega] using h
  · have h := tileUnpack_odd (tilePack ovf px) (k := j / 2) (by omega)
    rw [tilePack_getElem, (nibbles_of_append _ _).2.1] at h
    simpa only [show 2 * (j / 2) + 1 = j by omega] using h

/-! ## The two answering commands, so that no later proof compares unpacked tiles by evaluating them -/

theorem exec_tunpk (s : State) : exec .tunpk s = .next (issue (okResponse (tileUnpack s.tile).toList) s) := rfl

theorem exec_tst (s : State) : exec .tst s = .next (issue (okResponse s.tile.toList) s) := rfl

end Sys2Proof.Machine
end

