-- ==== Sys2Proof/Tests/Slice0.lean ====
section
/-! SUPPORT. Small tests, their expected results taken from the spec's own vectors (95_test_vectors.md, named in each
comment), and for each statement a state and operands that meet its hypotheses. -/

namespace Sys2Proof.Tests

open Sys2Proof.Machine Sys2Proof.Safety

/-! ## Helpers -/

/-- One step on the packet of this header and payload. -/
def send (h : BitVec 64) (pay : List Byte) (s : State) : Option State :=
  match step { s with inbox := sendBytes (headerBytes h ++ pay) } with
  | .next t => some t
  | .fault _ => none
  | .refused _ => none

/-- The latest response: its word and its result bytes. -/
def answer (o : Option State) : Option (BitVec 32 × List Byte) :=
  o.bind fun t => t.outbox.getLast?.map fun r => (r.word, r.res)

/-- STAT after that step. -/
def statOf (o : Option State) : Option (BitVec 32) := o.map State.stat

/-- The state an outcome goes on in. -/
def nextOf : Outcome → Option State
  | .next t => some t
  | .fault _ => none
  | .refused _ => none

/-- Reset, with this colour in every colour register. -/
def colours (c : Colour) : State := { State.reset with col := Vector.replicate 32 (some c) }

/-- Reset, with this palette in PAL. -/
def withPal (cs : List Colour) : State := { State.reset with pal := some ⟨cs⟩ }

/-- Reset, with this entry in MAP. -/
def withMap (e : MapEntry) : State := { State.reset with mapE := some e }

/-- Reset, with every byte of TILE this. -/
def withTile (b : Byte) : State := { State.reset with tile := Vector.replicate 32 b }

/-- Reset, with these parameters. -/
def withParams (p : PixOvf) (m : MapOvf) : State := { State.reset with params := ⟨p, m⟩ }

/-- Reset, with these bytes coming. -/
def sending (bytes : List Byte) : State := { State.reset with inbox := sendBytes bytes }

/-- Every register holds a value. -/
def held : State :=
  { colours ⟨14, 8, 0⟩ with pal := some ⟨List.replicate 16 ⟨14, 15, 255⟩⟩, mapE := some ⟨5, 2, 1, 0, 1⟩ }

/-! ## WellFormed (30_encoding.md R61) -/

theorem payload_of_length (n : Nat) : payloadFits (some (List.replicate n 0)) = decide (n ≤ 65535) := by
  simp [payloadFits]

/-- One byte more than LEN can say is refused, for a command of each payload format. -/
theorem test_illformed_payload :
    ¬ (Instr.cdec 0 (some (List.replicate 65536 0))).WellFormed ∧
    ¬ (Instr.cdecx 0 0 (some (List.replicate 65536 0))).WellFormed ∧
    ¬ (Instr.tld (some (List.replicate 65536 0))).WellFormed ∧
    ¬ (Instr.mdec 0 (some (List.replicate 65536 0))).WellFormed := by
  simp only [Instr.WellFormed, Instr.payload, payload_of_length]; decide

/-- The longest payload, the empty one and none at all are well-formed. -/
theorem test_wellformed_payload :
    (Instr.tld (some (List.replicate 65535 0))).WellFormed ∧ (Instr.tld (some [])).WellFormed ∧
    (Instr.tld none).WellFormed ∧ Instr.penc.WellFormed := by
  simp only [Instr.WellFormed, Instr.payload, payload_of_length]; decide

/-! ## Decoding, one word per command (V1 to V69), written out from the encodings -/

theorem test_decode_cq : decode [0x10, 0x00, 0x00, 0x00, 0x1F, 0x10, 0x1F, 0x20] = .instr (.cq 31 16 31 32) [] := by
  decide -- V5
theorem test_decode_cdec :
    decode [0x11, 0x80, 0x00, 0x02, 0x02, 0x00, 0x00, 0x00, 0x0A, 0x4C] = .instr (.cdec 2 (some [0x0A, 0x4C])) [] := by
  decide -- V12
theorem test_decode_cdec_null : decodeTableWord 64 0x1100000000000000 = some (.cdec 0 none) := by decide -- V16
theorem test_decode_cdecx :
    decode [0x12, 0x80, 0x00, 0x02, 0x00, 0x00, 0xFF, 0xFF, 0x00, 0x00] =
      .instr (.cdecx 0 0xFFFF (some [0x00, 0x00])) [] := by decide -- V29
theorem test_decode_cenc : decode [0x13, 0x00, 0x00, 0x00, 0x03, 0x00, 0x00, 0x00] = .instr (.cenc 3) [] := by
  decide -- V9
theorem test_decode_pdecF : decodeTableWord 64 0x2000000000000000 = some (.pdecF none) := by decide -- V38
theorem test_decode_pdecV :
    decode [0x21, 0x80, 0x00, 0x06, 0, 0, 0, 0, 0x00, 0x00, 0x0A, 0x4C, 0x0E, 0xEE] =
      .instr (.pdecV (some [0x00, 0x00, 0x0A, 0x4C, 0x0E, 0xEE])) [] := by decide -- V30
theorem test_decode_pldF : decodeTableWord 64 0x220000000000000F = some (.pldF 15) := by decide -- V40
theorem test_decode_pldV : decodeTableWord 64 0x230000000000003F = some (.pldV 63) := by decide -- V40
theorem test_decode_penc : decodeTableWord 64 0x2400000000000000 = some .penc := by decide -- V43
theorem test_decode_tld :
    decode ([0x30, 0x80, 0x00, 0x1F, 0, 0, 0, 0] ++ List.replicate 31 0xAB) =
      .instr (.tld (some (List.replicate 31 0xAB))) [] := by decide -- V51
theorem test_decode_tpk : decodeTableWord 64 0x3100000000000000 = some (.tpk none) := by decide -- V50
theorem test_decode_tunpk : decodeTableWord 64 0x3200000000000000 = some .tunpk := by decide -- V47
theorem test_decode_tst : decodeTableWord 64 0x3300000000000000 = some .tst := by decide -- V47
theorem test_decode_tclr : decodeTableWord 64 0x3400000000000000 = some .tclr := by decide -- V53
theorem test_decode_mdec :
    decode [0x40, 0x80, 0x00, 0x04, 0, 0, 0x00, 0x03, 0xFF, 0xA9, 0x34, 0x00] =
      .instr (.mdec 3 (some [0xFF, 0xA9, 0x34, 0x00])) [] := by decide -- V63
theorem test_decode_menc : decodeTableWord 64 0x4100000000000000 = some .menc := by decide -- V60
theorem test_decode_mmk :
    decodeTableWord 64 0x4200000005020005 = some (.mmk 5 2 1 0 1) ∧
    decodeTableWord 64 0x4200000000070FFF = some (.mmk 0x0FFF 7 0 0 0) := by decide -- S4, V66

/-- The encoder writes the words of V4, V20 and S4. -/
theorem test_encode :
    encode (.cq 2 37 200 99) = [0x10, 0x00, 0x00, 0x00, 0x02, 0x25, 0xC8, 0x63] ∧
    encode (.cdecx 3 1 (some [0x00, 0x00, 0x0A, 0x4C, 0x0E, 0xEE])) =
      [0x12, 0x80, 0x00, 0x06, 0x03, 0x00, 0x00, 0x01, 0x00, 0x00, 0x0A, 0x4C, 0x0E, 0xEE] ∧
    encode (.mmk 5 2 1 0 1) = [0x42, 0x00, 0x00, 0x00, 0x05, 0x02, 0x00, 0x05] := by decide

/-- Illegal headers, by cause (V80 to V92); the packet is consumed whole. -/
theorem test_illegal_opcode :
    ∀ b ∈ [0x00, 0xFF, 0x14, 0x25, 0x35, 0x43], decode [b, 0, 0, 0, 0, 0, 0, 0, 0xEE] = .illegal .opcode [0xEE] := by
  decide
theorem test_illegal_field :
    decode [0x13, 0x01, 0, 0, 0x00, 0, 0, 0x00] = .illegal .field [] ∧
    decode [0x13, 0x00, 0, 0, 0x20, 0, 0, 0x00] = .illegal .field [] ∧
    decode [0x13, 0x00, 0, 0, 0x00, 0, 0, 0x01] = .illegal .field [] ∧
    decode [0x24, 0x80, 0, 0, 0x00, 0, 0, 0x00] = .illegal .field [] ∧
    decode [0x22, 0x00, 0, 0, 0x00, 0, 0, 0x40] = .illegal .field [] ∧
    decode [0x42, 0x00, 0, 0, 0x08, 0, 0, 0x00] = .illegal .field [] := by decide -- V83 to V86, V89, V90
theorem test_illegal_length :
    decode [0x33, 0, 0, 1, 0, 0, 0, 0, 0xAA, 0x24] = .illegal .field [0x24] ∧
    decode [0x30, 0, 0, 2, 0, 0, 0, 0, 0xFF, 0xFF] = .illegal .field [] ∧
    decode [0x30, 0x80, 0, 2, 0, 0, 0, 1, 0xFF, 0xFF] = .illegal .field [] ∧
    decode [0x00, 0x80, 0, 2, 0, 0, 0, 0, 0x11, 0x11, 0x11] = .illegal .opcode [0x11] := by decide

/-- Every row's own word is read back and run as the first instruction after reset. -/
theorem test_table_words :
    (opcodeMap.map fun row => (decodeTableWord 64 row.2.1.toNat).map opcodeOf) = opcodeMap.map fun row => some row.1 := by
  decide
theorem test_withFetchWord :
    (nextOf (step (State.reset.withFetchWord 64 0x3300000000000000))).map State.outbox =
      some [⟨0x00000020, List.replicate 32 0⟩] := by decide -- V47
theorem test_withFetchWord_payload :
    (nextOf (step (State.reset.withFetchWord 80 0x4CFF1180000205000000))).bind (readColour · 5) = some ⟨12, 4, 0xFF⟩ ∧
    ((nextOf (step (State.reset.withFetchWord 80 0x4CFF1180000205000000))).map State.inbox) = some [] := by decide

/-! ## Colour family -/

theorem test_quantise :
    [0, 15, 16, 31, 32, 47, 48, 63, 64, 95, 96, 127, 128, 159, 160, 191, 192, 223, 224, 239, 240, 255].map quantise =
      [0, 0, 0, 0, 2, 2, 2, 2, 4, 4, 6, 6, 8, 8, 10, 10, 12, 12, 14, 14, 14, 14] := by decide -- section 2.1
theorem test_cq :
    answer (send 0x100000000225C863 [] State.reset) = some (0x00000000, []) ∧
    (send 0x100000000225C863 [] State.reset).bind (readColour · 2) = some ⟨2, 12, 6⟩ := by decide -- V4
theorem test_cq_other_register :
    (send 0x1000000001FF8000 [] State.reset).bind (readColour · 1) = some ⟨14, 8, 0⟩ ∧
    (send 0x1000000001FF8000 [] State.reset).bind (readColour · 0) = none := by decide -- V2
theorem test_cdec :
    (send 0x1180000200000000 [0xFF, 0xFF] State.reset).bind (readColour · 0) = some ⟨14, 15, 255⟩ := by decide -- V10
theorem test_cdec_faults :
    answer (send 0x1100000000000000 [] State.reset) = some (0x01010000, []) ∧
    answer (send 0x1180000000000000 [] State.reset) = some (0x01020000, []) ∧
    statOf (send 0x1180000100000000 [1] State.reset) = some 0x80000102 := by decide -- V16, V19, V17
theorem test_cdecx :
    (send 0x1280000603000001 [0, 0, 0x0A, 0x4C, 0x0E, 0xEE] State.reset).bind (readColour · 3) = some ⟨12, 4, 10⟩ ∧
    (send 0x1280000300000000 [0x01, 0x23, 0x03] State.reset).bind (readColour · 0) = some ⟨2, 2, 1⟩ := by
  decide -- V20, V26
theorem test_cdecx_range :
    statOf (send 0x1280000600000003 [0, 0, 0x0A, 0x4C, 0x0E, 0xEE] State.reset) = some 0x80000104 ∧
    answer (send 0x128000020000FFFF [0, 0] State.reset) = some (0x01040000, []) := by decide -- V22, V29
theorem test_cenc :
    answer (send 0x1300000002000000 [] (colours ⟨2, 12, 6⟩)) = some (0x00000002, [0x06, 0xC2]) ∧
    answer (send 0x1300000000000000 [] (colours ⟨14, 15, 255⟩)) = some (0x00000002, [0xFF, 0xFE]) := by
  decide -- V8, V11
theorem test_cenc_null :
    answer (send 0x1300000003000000 [] State.reset) = some (0x01050000, []) ∧
    statOf (send 0x1300000003000000 [] State.reset) = some 0x80000105 := by decide -- V9

/-! ## Palette family -/

theorem test_pdecF :
    (send 0x2080002000000000 (List.replicate 32 0xFF) State.reset).bind State.pal =
      some ⟨List.replicate 16 ⟨14, 15, 255⟩⟩ := by decide -- V37
theorem test_pdecF_faults :
    ∀ n ∈ [0, 2, 30, 31, 33, 34],
      answer (send (0x2080000000000000 + (BitVec.ofNat 64 n <<< 32)) (List.replicate n 0) State.reset) =
        some (0x01020000, []) := by decide -- V36
theorem test_pdecV :
    (send 0x2180000600000000 [0, 0, 0x0A, 0x4C, 0x0E, 0xEE] State.reset).bind State.pal =
      some ⟨[⟨0, 0, 0⟩, ⟨12, 4, 10⟩, ⟨14, 14, 14⟩]⟩ ∧
    (send 0x2180000000000000 [] State.reset).bind State.pal = some ⟨[]⟩ := by decide -- V30, V31
theorem test_pdecV_faults :
    answer (send 0x2100000000000000 [] State.reset) = some (0x01010000, []) ∧
    ∀ n ∈ [1, 31, 33, 34],
      answer (send (0x2180000000000000 + (BitVec.ofNat 64 n <<< 32)) (List.replicate n 0) State.reset) =
        some (0x01020000, []) := by decide -- V32, V33, V35
theorem test_pldF :
    (send 0x2200000000000010 [] (colours ⟨14, 8, 0⟩)).bind State.pal = some ⟨List.replicate 16 ⟨14, 8, 0⟩⟩ := by
  decide -- S2
theorem test_pldF_faults :
    answer (send 0x220000000000000F [] (colours ⟨14, 8, 0⟩)) = some (0x01020000, []) ∧
    answer (send 0x2200000000000011 [] (colours ⟨14, 8, 0⟩)) = some (0x01030000, []) ∧
    answer (send 0x2200000000000000 [] State.reset) = some (0x01020000, []) := by decide -- V40, V44
theorem test_pldV :
    (send 0x2300000000000002 [] (writeColour 1 ⟨14, 8, 0⟩ (writeColour 0 ⟨14, 14, 14⟩ State.reset))).bind State.pal =
      some ⟨[⟨14, 14, 14⟩, ⟨14, 8, 0⟩]⟩ ∧
    (send 0x2300000000000000 [] State.reset).bind State.pal = some ⟨[]⟩ := by decide -- P2 step 5, V41
theorem test_pldV_faults :
    answer (send 0x230000000000003F [] (colours ⟨14, 8, 0⟩)) = some (0x01030000, []) ∧
    answer (send 0x2300000000000003 [] (writeColour 1 ⟨0, 0, 0⟩ (writeColour 0 ⟨0, 0, 0⟩ State.reset))) =
      some (0x01050000, []) := by decide -- V40, V42
theorem test_penc :
    answer (send 0x2400000000000000 [] (withPal [⟨14, 14, 14⟩, ⟨14, 8, 0⟩])) =
      some (0x00000004, [0x0E, 0xEE, 0x00, 0x8E]) := by decide -- P2 step 6
theorem test_penc_empty_and_null :
    answer (send 0x2400000000000000 [] (withPal [])) = some (0x00000000, []) ∧
    answer (send 0x2400000000000000 [] State.reset) = some (0x01050000, []) := by decide -- V31, V43

/-! ## Tile family -/

theorem test_tld :
    (send 0x3080002000000000 (0xAB :: List.replicate 31 0) State.reset).map (·.tile.toList) =
      some (0xAB :: List.replicate 31 0) := by decide -- S6
theorem test_tld_faults :
    answer (send 0x3000000000000000 [] State.reset) = some (0x01010000, []) ∧
    (∀ n ∈ [0, 31, 33], answer (send (0x3080000000000000 + (BitVec.ofNat 64 n <<< 32)) (List.replicate n 1)
      State.reset) = some (0x01020000, [])) ∧
    (send 0x3080001F00000000 (List.replicate 31 1) (withTile 0xAB)).map State.tile =
      some (Vector.replicate 32 0xAB) := by decide -- V50, V51, V54
theorem test_tpk_clamp :
    (send 0x3180004000000000 ([0x10, 0x0B, 0xFF, 0x00, 0x0F, 0x1F] ++ List.replicate 58 0)
      (withParams .clamp .truncate)).map (·.tile.toList) =
      some ([0xFB, 0xF0, 0xFF] ++ List.replicate 29 0) := by decide -- V48
theorem test_tpk_mask :
    (send 0x3180004000000000 ([0x10, 0x0B, 0xFF, 0x00, 0x0F, 0x1F] ++ List.replicate 58 0)
      (withParams .mask .truncate)).map (·.tile.toList) =
      some ([0x0B, 0xF0, 0xFF] ++ List.replicate 29 0) ∧
    answer (send 0x3180003F00000000 (List.replicate 63 0) State.reset) = some (0x01020000, []) := by
  decide -- V49, V52
theorem test_tunpk :
    answer (send 0x3200000000000000 [] (withTile 0xAB)) =
      some (0x00000040, (List.replicate 32 [0x0A, 0x0B]).flatten) := by decide -- S6
theorem test_tst :
    answer (send 0x3300000000000000 [] (withTile 0xCD)) = some (0x00000020, List.replicate 32 0xCD) := by
  decide -- P3 step 5
theorem test_tclr :
    (send 0x3400000000000000 [] (withTile 0xAB)).map State.tile = some (Vector.replicate 32 0) := by decide -- V53

/-! ## Mapping family -/

theorem test_mapenc :
    mapenc ⟨2047, 3, 0, 0, 0⟩ = (0x67, 0xFF) ∧ mapenc ⟨0x2A5, 1, 0, 1, 0⟩ = (0x2A, 0xA5) ∧
    mapenc ⟨0, 0, 1, 0, 0⟩ = (0x10, 0x00) ∧ mapenc ⟨256, 0, 0, 0, 0⟩ = (0x01, 0x00) := by decide -- section 2.5
theorem test_mdec :
    (send 0x4080000400000001 [0xFF, 0xA9, 0x34, 0x00] State.reset).bind State.mapE = some ⟨308, 1, 0, 1, 1⟩ ∧
    (send 0x4080000400000002 [0xFF, 0xA9, 0x34, 0x00] State.reset).bind State.mapE = some ⟨1024, 1, 1, 0, 0⟩ := by
  decide -- V61, V62
theorem test_mdec_faults :
    answer (send 0x4080000400000003 [0xFF, 0xA9, 0x34, 0x00] State.reset) = some (0x01040000, []) ∧
    answer (send 0x4080000100000000 [0xD0] State.reset) = some (0x01040000, []) ∧
    answer (send 0x4000000000000000 [] State.reset) = some (0x01010000, []) := by decide -- V63, V64, V65
theorem test_menc :
    answer (send 0x4100000000000000 [] (withMap ⟨5, 2, 1, 0, 1⟩)) = some (0x00000002, [0xD0, 0x05]) ∧
    answer (send 0x4100000000000000 [] (withMap ⟨5, 2, 1, 1, 1⟩)) = some (0x00000002, [0xD8, 0x05]) := by
  decide -- S4, S5
theorem test_menc_null : answer (send 0x4100000000000000 [] State.reset) = some (0x01050000, []) := by decide -- V60
theorem test_mmk_truncates :
    (send 0x4200000000070FFF [] State.reset).bind State.mapE = some ⟨2047, 3, 0, 0, 0⟩ ∧
    (send 0x4200000000000800 [] State.reset).bind State.mapE = some ⟨0, 0, 0, 0, 0⟩ := by decide -- V66, V67
theorem test_mmk_faults :
    statOf (send 0x4200000000070FFF [] (withParams .clamp .fault)) = some 0x80000106 ∧
    (send 0x42000000000307FF [] (withParams .clamp .fault)).bind State.mapE = some ⟨2047, 3, 0, 0, 0⟩ ∧
    answer (send 0x4200000000040000 [] (withParams .clamp .fault)) = some (0x01060000, []) := by decide -- V68, V69

/-! ## Faults, reset, the stream -/

/-- V92, V88: the whole packet is consumed and the next one is read after it. -/
theorem test_illegal_consumed :
    (send 0x0080001F00000000 (List.replicate 31 0 ++ [0x24]) State.reset).map State.inbox =
      some [HostMove.byte 0x24] ∧
    answer (send 0x0080001F00000000 (List.replicate 31 0) State.reset) = some (0x02010000, []) ∧
    statOf (send 0x3000002000000000 (List.replicate 32 0xFF) State.reset) = some 0x80000202 := by decide

/-- V94: a command that ends OK leaves STAT. -/
theorem test_stat_sticky :
    statOf (send 0x1000000000000000 [] { State.reset with stat := 0x80000105 }) = some 0x80000105 := by decide

/-- The reset input restores the values of R35. -/
theorem test_reset_input :
    nextOf (step { held with stat := 0x80000105, inbox := [.reset] }) = some State.reset := by decide

/-- A response packet as bytes (R67): V6's. -/
theorem test_response_bytes : responseBytes (okResponse [0x00, 0x8E]) = [0x00, 0x00, 0x00, 0x02, 0x00, 0x8E] := by
  decide

/-! ## Assembler lines (sections 2.2 to 2.5, 30_encoding.md R69, R70) -/

theorem test_asm_cq : assembleLine "CQ C0, 255, 128, 0 ; S1".toList = some [.cq 0 255 128 0] := by decide
theorem test_asm_payload :
    assembleLine ("CDECX C3, 0b1, ".toList ++ [Char.ofNat 123] ++ "00 00 0A 4C".toList ++ [Char.ofNat 125]) =
      some [.cdecx 3 1 (some [0x00, 0x00, 0x0A, 0x4C])] ∧
    assembleLine "PDEC.V null".toList = some [.pdecV none] := by decide
theorem test_asm_pseudo :
    assembleLine "MMK 0x0FFF, 7".toList = some [.mmk 0x0FFF 7 0 0 0] ∧
    assembleLine "MMK 5, 2, 1, 1".toList = some [.mmk 5 2 1 1 0] ∧
    assembleLine "TDEC null".toList = some [.tld none, .tunpk] ∧
    assembleLine "TENC null".toList = some [.tpk none, .tst] := by decide
theorem test_asm_rejects :
    assembleLine "CQ C32, 0, 0, 0".toList = none ∧ assembleLine "CQ C0, 256, 0, 0".toList = none ∧
    assembleLine "MMK 5, 2, 1".toList = none ∧ assembleLine "NOP".toList = none := by decide
theorem test_asm_numbers :
    number "0x1aF".toList = some 431 ∧ number "0b101".toList = some 5 ∧ number "255".toList = some 255 ∧
    number "0b2".toList = none ∧ number "1A".toList = none ∧ number "0x".toList = none := by decide

/-- Log entry 10: 65535 bytes make a payload, one more makes none. -/
theorem test_asm_payload_length :
    payloadOperand (List.replicate 65535 0) = some (.pay (some (List.replicate 65535 0))) ∧
    payloadOperand (List.replicate 65536 0) = none := by
  simp only [payloadOperand, List.length_replicate]
  exact ⟨if_pos (by decide), if_neg (by decide)⟩

/-! ## Witnesses: for each statement with hypotheses, what meets them, each clause at a boundary of its range -/

theorem witness_DecodeUndoesEncode :
    (Instr.mdec 0xFFFF (some (List.replicate 65535 0))).WellFormed ∧ (Instr.cdec 31 none).WellFormed ∧
    (Instr.pdecV (some [])).WellFormed := by
  simp only [Instr.WellFormed, Instr.payload, payload_of_length]; decide

theorem witness_LegalPacketIsItsEncoding :
    decode [0x11, 0x80, 0x00, 0x01, 0x1F, 0, 0, 0, 0xAA, 0x24] = .instr (.cdec 31 (some [0xAA])) [0x24] := by decide

/-- A row with a payload, with `P = 1` and with `P = 0` and `LEN = 0`, and a row without. -/
theorem witness_NoHeaderMatchesTwoRows :
    (∃ row ∈ rows, row.opc = 0x30 ∧ 0x3080000100000000 &&& row.mask = row.fixed ∧ pOf 0x3080000100000000 = true) ∧
    (∃ row ∈ rows, row.opc = 0x30 ∧ 0x3000000000000000 &&& row.mask = row.fixed ∧ lenOf 0x3000000000000000 = 0) ∧
    (∃ row ∈ rows, row.opc = 0x33 ∧ 0x3300000000000000 &&& row.mask = row.fixed ∧ lenOf 0x3300000000000000 = 0) :=
  ⟨⟨rows[9], by simp [rows, tileRows, colourRows, paletteRows], rfl, rfl, rfl⟩,
    ⟨rows[9], by simp [rows, tileRows, colourRows, paletteRows], rfl, rfl, rfl⟩,
    ⟨rows[12], by simp [rows, tileRows, colourRows, paletteRows], rfl, rfl, rfl⟩⟩

theorem witness_StepRunsDecodedInstruction :
    decode [0x11, 0x80, 0, 0x02, 0, 0, 0, 0, 0xFF, 0xFF] = .instr (.cdec 0 (some [0xFF, 0xFF])) [] ∧
    (sending [0x11, 0x80, 0, 0x02, 0, 0, 0, 0, 0xFF, 0xFF, 0x24]).inbox =
      sendBytes [0x11, 0x80, 0, 0x02, 0, 0, 0, 0, 0xFF, 0xFF] ++ [.byte 0x24] := by decide

/-- A packet with this header and payload is all that comes. -/
abbrev packetComes (h : BitVec 64) (pay : List Byte) : Prop :=
  pay.length = (lenOf h).toNat ∧ (sending (headerBytes h ++ pay)).inbox = sendBytes (headerBytes h ++ pay) ++ []

/-- R65's four steps: an undefined opcode, a fixed bit, `P = 0` with `LEN` not 0, and a command with and without a
payload. -/
theorem witness_HeaderDecodesOrFaultsInOrder :
    (packetComes 0x0080000100000000 [0xAA] ∧ opcodeMap.find? (fun row => row.1 == opcOf 0x0080000100000000) = none) ∧
    (packetComes 0x3300000100000000 [0xAA] ∧ (0x3300000100000000#64 &&& 0xFFFFFFFFFFFFFFFF) ≠ 0x3300000000000000) ∧
    (packetComes 0x3000000100000000 [0xAA] ∧ (0x3000000100000000#64 &&& 0xFF7F0000FFFFFFFF) = 0x3000000000000000 ∧
      pOf 0x3000000100000000 = false ∧ lenOf 0x3000000100000000 ≠ 0) ∧
    (packetComes 0x3080000100000000 [0xAA] ∧ pOf 0x3080000100000000 = true) ∧
    (packetComes 0x3000000000000000 [] ∧ pOf 0x3000000000000000 = false ∧ lenOf 0x3000000000000000 = 0) := by decide

theorem witness_EveryPacketIsConsumedAndAnsweredOnce :
    packetComes 0x2400000000000000 [] ∧ paletteLegal ⟨List.replicate 16 ⟨14, 15, 255⟩⟩ ∧
    { held with inbox := sendBytes (headerBytes 0x2400000000000000 ++ []) ++ [] }.pal =
      some ⟨List.replicate 16 ⟨14, 15, 255⟩⟩ := by decide

theorem witness_ResetInputRestoresResetValues :
    (withInbox [.reset, .byte 0x24] held).inbox = HostMove.reset :: [.byte 0x24] := by decide

theorem witness_IdleStepKeepsState : held.inbox = [] := by decide

/-- One byte, seven bytes, and a header whose one payload byte is missing; each then ended by a reset. -/
theorem witness_UnfinishedPacketStops :
    (0 < [0x11#8].length ∧ [0x11#8].length < 8) ∧
    (0 < (List.replicate 7 0x11#8).length ∧ (List.replicate 7 0x11#8).length < 8) ∧
    [0xFF#8].length < (lenOf 0x1180000200000000).toNat ∧
    (sending [0x11]).inbox = sendBytes [0x11] ∧
    (withInbox (sendBytes [0x11] ++ [.reset]) State.reset).inbox = sendBytes [0x11] ++ HostMove.reset :: [] ∧
    (sending (headerBytes 0x1180000200000000 ++ [0xFF])).inbox =
      sendBytes (headerBytes 0x1180000200000000 ++ [0xFF]) := by decide

/-- 93 N4 and N2: the two stops of the model. -/
theorem test_cut_short : step (sending [0x11, 0x80, 0, 2, 0, 0, 0, 0, 0xFF]) = .fault .packetCutShort := by rfl
theorem test_reset_inside :
    step (withInbox (sendBytes [0x11, 0x80, 0, 2, 0, 0, 0, 0, 0xFF] ++ [.reset]) State.reset) =
      .refused .resetInCommand := by rfl

theorem witness_ColourCodecRoundTrips :
    colourLegal ⟨14, 15, 255⟩ ∧ colourLegal ⟨0, 0, 0⟩ ∧ inDomain ⟨14, 14, 14⟩ ∧ inDomain ⟨0, 0, 0⟩ ∧
    224#8 >>> 5 = 255#8 >>> 5 := by decide

/-- V12's conventional word, V13's with bit 4 set, V10's with both bytes out of convention. -/
theorem witness_InDomainExactlyFromConventionalWords :
    (channelInDomain (0x0A#8).toNat ∧ (0x4C#8).getLsbD 4 = false ∧ inDomain (coldec 0x0A 0x4C)) ∧
    ((0x35#8).getLsbD 4 = true ∧ ¬ inDomain (coldec 0x08 0x35)) ∧
    (¬ channelInDomain (0xFF#8).toNat ∧ ¬ inDomain (coldec 0xFF 0xFF)) ∧
    2 * (2#16).toNat + 1 < [0#8, 0, 0x0A, 0x4C, 0x0E, 0xEE].length := by decide -- V21's last slot

theorem witness_CdecDecodesTwoBytes : ([] : List Byte).length ≠ 2 ∧ [1#8].length ≠ 2 ∧ [1#8, 2, 3].length ≠ 2 := by decide

/-- V21's last slot and V22's first beyond it; V25's odd buffer. -/
theorem witness_CdecxDecodesSlot :
    2 * (2#16).toNat + 1 < [0#8, 0, 0x0A, 0x4C, 0x0E, 0xEE].length ∧
    2 * (3#16).toNat + 1 ≥ [0#8, 0, 0x0A, 0x4C, 0x0E, 0xEE].length ∧
    2 * (1#16).toNat + 1 ≥ [1#8, 2, 3].length ∧ 2 * (0xFFFF#16).toNat + 1 ≥ [0#8, 0].length := by decide

theorem witness_CencAnswersColourWord :
    readColour held 31 = some ⟨14, 8, 0⟩ ∧ readColour State.reset 31 = none := by decide

theorem witness_ColourFamilyRoundTrips : readColour held 0 = some ⟨14, 8, 0⟩ ∧ colourLegal ⟨14, 8, 0⟩ := by decide

theorem witness_PaletteCodecRoundTrips :
    paletteLegal ⟨List.replicate 16 ⟨14, 15, 255⟩⟩ ∧ paletteLegal ⟨[]⟩ ∧ ([] : List Byte).length % 2 = 0 ∧
    [0xFF#8, 0xFF].length % 2 = 0 ∧ 2 * 0 + 1 < [0xFF#8, 0xFF].length ∧
    ∀ c ∈ (⟨List.replicate 16 ⟨14, 14, 14⟩⟩ : Palette).ent, inDomain c := by decide

theorem witness_PdecFDecodesSixteenColours :
    (List.replicate 32 0xFF#8).length = 32 ∧ 2 * 15 + 1 < (List.replicate 32 0xFF#8).length ∧
    (List.replicate 31 0xFF#8).length ≠ 32 ∧ (List.replicate 33 0xFF#8).length ≠ 32 := by decide

theorem witness_PdecVDecodesEvenBuffer :
    (([] : List Byte).length % 2 = 0 ∧ ([] : List Byte).length ≤ 32) ∧
    ((List.replicate 32 0xFF#8).length % 2 = 0 ∧ (List.replicate 32 0xFF#8).length ≤ 32 ∧
      2 * 15 + 1 < (List.replicate 32 0xFF#8).length) ∧
    (List.replicate 31 0xFF#8).length % 2 = 1 ∧ (List.replicate 34 0xFF#8).length > 32 := by decide

/-- All sixteen held; the counts on both sides of 16; only the last missing. -/
theorem witness_PldFCopiesSixteenRegisters :
    (∀ k, k < 16 → readColour held (BitVec.ofNat 5 k) ≠ none) ∧
    (17#6).toNat > 16 ∧ (63#6).toNat > 16 ∧ (15#6).toNat < 16 ∧ (0#6).toNat < 16 ∧
    (∃ k, k < 16 ∧ readColour { held with col := held.col.set 15 none } (BitVec.ofNat 5 k) = none) := by
  refine ⟨by decide, by decide, by decide, by decide, by decide, 15, by decide, by decide⟩

theorem witness_PldVCopiesRegisters :
    ((16#6).toNat ≤ 16 ∧ ∀ k, k < (16#6).toNat → readColour held (BitVec.ofNat 5 k) ≠ none) ∧
    ((0#6).toNat ≤ 16 ∧ ∀ k, k < (0#6).toNat → readColour State.reset (BitVec.ofNat 5 k) ≠ none) ∧
    (17#6).toNat > 16 ∧ (63#6).toNat > 16 ∧
    ((16#6).toNat ≤ 16 ∧ ∃ k, k < (16#6).toNat ∧
      readColour { held with col := held.col.set 15 none } (BitVec.ofNat 5 k) = none) ∧
    ((1#6).toNat ≤ 16 ∧ ∃ k, k < (1#6).toNat ∧ readColour State.reset (BitVec.ofNat 5 k) = none) := by
  refine ⟨by decide, by decide, by decide, by decide, ⟨by decide, 15, by decide, by decide⟩,
    by decide, 0, by decide, by decide⟩

theorem witness_PencAnswersPaletteBytes :
    (held.pal = some ⟨List.replicate 16 ⟨14, 15, 255⟩⟩ ∧
      Palette.cnt ⟨List.replicate 16 ⟨14, 15, 255⟩⟩ ≤ 16 ∧
      (List.replicate 16 (⟨14, 15, 255⟩ : Colour))[15]? = some ⟨14, 15, 255⟩) ∧
    ((withPal []).pal = some ⟨[]⟩ ∧ Palette.cnt ⟨[]⟩ ≤ 16) ∧ State.reset.pal = none := by decide

theorem witness_PaletteFamilyRoundTrips :
    (List.replicate 32 0xFF#8).length = 32 ∧
    (([] : List Byte).length % 2 = 0 ∧ ([] : List Byte).length ≤ 32) ∧
    (held.pal = some ⟨List.replicate 16 ⟨14, 15, 255⟩⟩ ∧ paletteLegal ⟨List.replicate 16 ⟨14, 15, 255⟩⟩) ∧
    (((Instr.pldF 16 = .pldF 16 ∧ (16#6).toNat = 16) ∧ (Instr.pldV 16 = .pldV 16 ∧ (16#6).toNat ≤ 16)) ∧
      ∀ k, k < (16#6).toNat → ∃ c, readColour held (BitVec.ofNat 5 k) = some c ∧ inDomain c) := by
  refine ⟨by decide, by decide, by decide, by decide, fun k hk => ⟨⟨14, 8, 0⟩, ?_, by decide⟩⟩
  have : ∀ k, k < 16 → readColour held (BitVec.ofNat 5 k) = some ⟨14, 8, 0⟩ := by decide
  exact this k hk

theorem witness_TileCodecRoundTrips :
    (Vector.replicate 32 0xAB#8)[31] = 0xAB ∧ (∀ k, (hk : k < 64) → (Vector.replicate 64 15#8)[k].toNat ≤ 15) := by
  refine ⟨by decide, fun k hk => ?_⟩
  simp

theorem witness_TldCopiesThirtyTwoBytes :
    (List.replicate 32 0xAB#8).length = 32 ∧ (List.replicate 31 0xAB#8).length ≠ 32 ∧
    (List.replicate 33 0xAB#8).length ≠ 32 := by decide

theorem witness_TpkPacksPixels :
    (List.replicate 64 0x0F#8).length = 64 ∧ (List.replicate 63 0x0F#8).length ≠ 64 ∧
    (List.replicate 65 0x0F#8).length ≠ 64 := by decide

theorem witness_TileFamilyRoundTrips :
    (List.replicate 32 0xAB#8).length = 32 ∧ (List.replicate 64 0x0F#8).length = 64 ∧
    ∀ v ∈ List.replicate 64 0x0F#8, v.toNat ≤ 15 := by decide

theorem witness_PseudoInstructionsDecodeAndEncodeTiles :
    (List.replicate 32 0xAB#8).length = 32 ∧
    (((none : Payload) = none ∧ 0x01#8 = 0x01) ∨ ∃ w, (none : Payload) = some w ∧ w.length ≠ 32 ∧ 0x01#8 = 0x02) ∧
    (∃ w, (some (List.replicate 31 0xAB) : Payload) = some w ∧ w.length ≠ 32 ∧ 0x02#8 = 0x02) ∧
    (∃ w, (some (List.replicate 65 0x0F) : Payload) = some w ∧ w.length ≠ 64 ∧ 0x02#8 = 0x02) :=
  ⟨by decide, .inl ⟨rfl, rfl⟩, ⟨_, rfl, by decide, rfl⟩, ⟨_, rfl, by decide, rfl⟩⟩

/-- PX and PK of section 2.4, first row: TENC answers the packing of the pixels sent, and after a length fault the tile as
it was (R70). -/
theorem test_tenc :
    ((nextOf (execAll (expandTenc (some (List.replicate 8 [0, 1, 2, 3, 4, 5, 6, 7]).flatten)) State.reset)).map
      fun t => t.outbox.map fun r => (r.word, r.res)) =
        some [(0x00000000, []), (0x00000020, (List.replicate 8 [0x01, 0x23, 0x45, 0x67]).flatten)] ∧
    ((nextOf (execAll (expandTenc (some [1])) (withTile 0xAB))).map fun t => t.outbox.map fun r => (r.word, r.res)) =
        some [(0x01020000, []), (0x00000020, List.replicate 32 0xAB)] := by decide

/-- V62's last offset and V63's first beyond it; V64's empty and one-byte buffers. -/
theorem witness_MdecDecodesEntryAtOffset :
    (2#16).toNat + 1 < [0xFF#8, 0xA9, 0x34, 0x00].length ∧ (3#16).toNat + 1 ≥ [0xFF#8, 0xA9, 0x34, 0x00].length ∧
    (0#16).toNat + 1 ≥ [0xD0#8].length ∧ (0#16).toNat + 1 ≥ ([] : List Byte).length ∧
    (0xFFFF#16).toNat + 1 ≥ [0xFF#8, 0xA9, 0x34, 0x00].length := by decide

theorem witness_MencAnswersEntry : held.mapE = some ⟨5, 2, 1, 0, 1⟩ ∧ State.reset.mapE = none := by decide

/-- Either setting, on both sides of 2047 and of 3. -/
theorem witness_MmkConstructsEntry :
    (withParams .clamp .truncate).params.mapOvf = .truncate ∧
    ((withParams .clamp .fault).params.mapOvf = .fault ∧ (2047#16).toNat ≤ 2047 ∧ (3#8).toNat ≤ 3) ∧
    (2048#16).toNat > 2047 ∧ (4#8).toNat > 3 := by decide

/-- The invariant holds of a state in which every register holds a value and a fault is recorded. -/
theorem held_inv : StateInv { held with stat := 0x80000105, outbox := [faultResponse .nullObject] } where
  colours i c h := by
    have : ∀ i : RegNo, ∀ c : Colour, readColour held i = some c → c = ⟨14, 8, 0⟩ := by
      intro i c h
      simp only [readColour, held, colours, Vector.getElem_replicate, Option.some.injEq] at h
      exact h.symm
    rw [this i c h]; decide
  palette p h := by
    simp only [held, Option.some.injEq] at h
    subst h; decide
  stat := by decide
  responses := by decide

theorem witness_StepKeepsInvariant :
    StateInv { held with stat := 0x80000105, outbox := [faultResponse .nullObject] } ∧
    ∃ t, step { held with stat := 0x80000105, outbox := [faultResponse .nullObject] } = .next t := ⟨held_inv, _, rfl⟩

/-- Each register family changes under a command that may write it. -/
theorem witness_OnlyConstructingCommandsWriteRegisters :
    ((nextOf (exec (.cq 31 255 128 0) State.reset)).bind (readColour · 31) ≠ readColour State.reset 31) ∧
    ((nextOf (exec (.pldV 0) State.reset)).bind State.pal ≠ State.reset.pal) ∧
    ((nextOf (exec (.tld (some (List.replicate 32 1))) State.reset)).map State.tile ≠ some State.reset.tile) ∧
    ((nextOf (exec (.mmk 0 0 0 0 0) State.reset)).bind State.mapE ≠ State.reset.mapE) := by decide

/-- A command that reads everything comes to a state in which everything is held and a fault is recorded. -/
theorem witness_ValidityIsLostOnlyByReset :
    (nextOf (step { held with inbox := sendBytes (headerBytes 0x2400000000000000) })).isSome ∧
    (∀ ms, { held with inbox := sendBytes (headerBytes 0x2400000000000000) }.inbox ≠ .reset :: ms) ∧
    (readColour held 31).isSome ∧ held.pal.isSome ∧ held.mapE.isSome := by
  refine ⟨by decide, fun ms => ?_, by decide, by decide, by decide⟩
  simp [sendBytes, headerBytes]

theorem witness_FaultRecordIsSticky :
    (nextOf (step { sending (headerBytes 0x1000000000000000) with stat := 0x80000105 })).isSome ∧
    (∀ ms, { sending (headerBytes 0x1000000000000000) with stat := 0x80000105 }.inbox ≠ .reset :: ms) ∧
    statFlt 0x80000105 = true := by
  refine ⟨by decide, fun ms => ?_, by decide⟩
  simp [sending, sendBytes, headerBytes]

theorem witness_CommandIgnoresFaultRecord :
    sameObjects held { held with stat := 0x80000105, outbox := [faultResponse .nullObject], inbox := [.reset] } ∧
    { held with stat := 0x80000105, outbox := [faultResponse .nullObject], inbox := [.reset] }.params =
      held.params := by decide

theorem witness_SameCommandTwiceIsIdempotent :
    (∃ t, exec (.cq 0 1 2 3) State.reset = .next t) ∧ (∃ t, exec (.cenc 0) State.reset = .next t) :=
  ⟨⟨_, rfl⟩, ⟨_, rfl⟩⟩

/-- Right after reset the run is clean and no response is there; after V93's first command neither side holds. -/
theorem witness_CleanExactlyWhileAllResponsesOk :
    (nextOf (step (sending (headerBytes 0x2400000000000000)))).isSome ∧
    (∀ ms, (sending (headerBytes 0x2400000000000000)).inbox ≠ .reset :: ms) ∧
    (clean (sending (headerBytes 0x2400000000000000)) ↔
      ∀ r ∈ (sending (headerBytes 0x2400000000000000)).outbox, wordStatus r.word = 0x00) ∧
    (¬ clean { State.reset with stat := 0x80000102, outbox := [faultResponse .length] } ∧
      ¬ ∀ r ∈ [faultResponse .length], wordStatus r.word = 0x00) := by
  refine ⟨by decide, fun ms => ?_, by decide, by decide, by decide⟩
  simp [sending, sendBytes, headerBytes]

theorem witness_StreamRunsInIssueOrder :
    (∀ i ∈ [Instr.tld (some [1]), Instr.tst], i.WellFormed) ∧
    (withInbox (sendBytes ([Instr.tld (some [1]), Instr.tst].flatMap encode) ++ [.reset]) State.reset).inbox =
      sendBytes ([Instr.tld (some [1]), Instr.tst].flatMap encode) ++ [HostMove.reset] := by decide

/-- A run with commands of every family that none of the four clauses' own commands is in. -/
theorem witness_ObjectsAreCopies :
    (∃ t, execAll [.cenc 0, .penc, .tunpk, .tst, .menc] held = .next t) ∧
    (∀ i ∈ [Instr.cenc 0, .penc, .tunpk, .tst, .menc], ∀ r g b pay idx,
      i ≠ .cq 31 r g b ∧ i ≠ .cdec 31 pay ∧ i ≠ .cdecx 31 idx pay) ∧
    (∀ i ∈ [Instr.cenc 0, .penc, .tunpk, .tst, .menc], ∀ pay n,
      i ≠ .pdecF pay ∧ i ≠ .pdecV pay ∧ i ≠ .pldF n ∧ i ≠ .pldV n) ∧
    (∀ i ∈ [Instr.cenc 0, .penc, .tunpk, .tst, .menc], ∀ pay, i ≠ .tld pay ∧ i ≠ .tpk pay ∧ i ≠ .tclr) ∧
    (∀ i ∈ [Instr.cenc 0, .penc, .tunpk, .tst, .menc], ∀ off pay a p vf hf pri,
      i ≠ .mdec off pay ∧ i ≠ .mmk a p vf hf pri) :=
  ⟨⟨_, rfl⟩, by simp, by simp, by simp, by simp⟩

theorem witness_AssembledCommandsFitPackets :
    assembleLine "CDEC C31, null".toList = some [.cdec 31 none] := by decide

/-- Colour registers, PAL and MAP with and without a value; a palette's last slot, and its first beyond `cnt`. -/
theorem witness_PortShowsEveryDefinedField :
    held.col[31] = some ⟨14, 8, 0⟩ ∧ State.reset.col[31] = none ∧
    (held.pal = some ⟨List.replicate 16 ⟨14, 15, 255⟩⟩ ∧ Palette.cnt ⟨List.replicate 16 ⟨14, 15, 255⟩⟩ ≤ 16 ∧
      (List.replicate 16 (⟨14, 15, 255⟩ : Colour))[15]? = some ⟨14, 15, 255⟩) ∧
    State.reset.pal = none ∧ (withPal [⟨14, 14, 14⟩]).pal = some ⟨[⟨14, 14, 14⟩]⟩ ∧
    Palette.cnt ⟨[⟨14, 14, 14⟩]⟩ ≤ 1 ∧ (withPal []).pal = some ⟨[]⟩ ∧ Palette.cnt ⟨[]⟩ ≤ 0 ∧
    held.mapE = some ⟨5, 2, 1, 0, 1⟩ ∧ State.reset.mapE = none := by decide

end Sys2Proof.Tests
end

section
/-! PROOFS. The state family (spec 10_state.md): what each register holds after a command, one rule per piece of state,
and the statements assembled from these rules. -/

namespace Sys2Proof.Machine

open Sys2Proof.Safety

variable {i : Instr} {s s' t : State}

/-! ## Values -/

/-- A decoded R is in-domain whatever the word (10_state.md R22 a). -/
theorem channelInDomain_coldec_r (b0 b1 : Byte) : channelInDomain (coldec b0 b1).r.toNat := by
  revert b1
  simp only [coldec]
  decide

/-- A decoded G is in-domain exactly when bit 4 of its byte, which becomes its bit 0, is clear. -/
theorem channelInDomain_coldec_g (b0 b1 : Byte) :
    channelInDomain (coldec b0 b1).g.toNat ↔ b1.getLsbD 4 = false := by
  revert b1
  simp only [coldec]
  decide

/-- Only B and the low bit of G can leave the domain, since only R is masked (90_conflicts.md C3). -/
theorem inDomain_coldec_iff (b0 b1 : Byte) :
    inDomain (coldec b0 b1) ↔ channelInDomain b0.toNat ∧ b1.getLsbD 4 = false := by
  rw [inDomain, channelInDomain_coldec_g]
  have hr := channelInDomain_coldec_r b0 b1
  exact ⟨fun ⟨_, hg, hb⟩ => ⟨hb, hg⟩, fun ⟨hb, hg⟩ => ⟨hr, hg, hb⟩⟩

theorem channelInDomain_quantise : ∀ v : Byte, channelInDomain (quantise v).toNat := by decide

theorem inDomain_quantised (r g b : Byte) : inDomain ⟨quantise r, quantise g, (quantise b).setWidth 8⟩ := by
  refine ⟨channelInDomain_quantise r, channelInDomain_quantise g, ?_⟩
  rw [BitVec.toNat_setWidth_of_le (by decide)]
  exact channelInDomain_quantise b

theorem statLegal_faultStat (c : Cause) : statLegal (faultStat c) := by cases c <;> decide

theorem responseLegal_faultResponse (c : Cause) : responseLegal (faultResponse c) := by
  refine ⟨by simp [faultResponse], fun h => ?_, fun _ => rfl⟩
  exact absurd (by simpa [faultResponse] using h) (causeStatus_ne_ok c)

theorem responseLegal_okResponse {res : List Byte} (hlen : res.length < 65536) : responseLegal (okResponse res) := by
  refine ⟨by simpa [okResponse] using Nat.mod_eq_of_lt hlen, fun _ => by simp [okResponse], fun h => ?_⟩
  exact absurd (by simp [okResponse, statusOk]) h

/-! ## The three commands that construct a colour, where they succeed -/

theorem exec_cq (cd : RegNo) (r g b : Byte) (s : State) :
    exec (.cq cd r g b) s =
      .next (issue (okResponse []) (writeColour cd ⟨quantise r, quantise g, (quantise b).setWidth 8⟩ s)) := rfl

theorem exec_cdec_pair (cd : RegNo) (b0 b1 : Byte) (s : State) :
    exec (.cdec cd (some [b0, b1])) s = .next (issue (okResponse []) (writeColour cd (coldec b0 b1) s)) := rfl

theorem exec_cdecx_slot (cd : RegNo) (idx : BitVec 16) {bytes : List Byte} (h : 2 * idx.toNat + 1 < bytes.length)
    (s : State) :
    exec (.cdecx cd idx (some bytes)) s =
      .next (issue (okResponse []) (writeColour cd (coldec bytes[2 * idx.toNat] bytes[2 * idx.toNat + 1]) s)) := by
  have hpair : pairAt bytes (2 * idx.toNat) = some (bytes[2 * idx.toNat], bytes[2 * idx.toNat + 1]) :=
    pairAt_eq_some.2 ⟨List.getElem?_eq_getElem _, List.getElem?_eq_getElem _⟩
  simp only [exec, execCdecx, withPayload_some, hpair, respond_eq]

/-! ## The state a command ends in -/

/-- The commands that construct into PAL (10_state.md R25). -/
abbrev ConstructsPal (i : Instr) : Prop :=
  (∃ pay, i = .pdecF pay) ∨ (∃ pay, i = .pdecV pay) ∨ (∃ n, i = .pldF n) ∨ (∃ n, i = .pldV n)

/-- The commands that construct into TILE (10_state.md R26). -/
abbrev ConstructsTile (i : Instr) : Prop := (∃ pay, i = .tld pay) ∨ (∃ pay, i = .tpk pay) ∨ i = .tclr

/-- The commands that construct into MAP (10_state.md R27). -/
abbrev ConstructsMap (i : Instr) : Prop :=
  (∃ off pay, i = .mdec off pay) ∨ (∃ t p vf hf pri, i = .mmk t p vf hf pri)

/-- A colour register is as before, or it is the command's destination and holds a legal colour (10_state.md R22,
R23). -/
theorem Ends.readColour_cases (h : Ends i s (.next t)) (j : RegNo) :
    readColour t j = readColour s j ∨ colourDest i = some j ∧ ∃ v, colourLegal v ∧ readColour t j = some v := by
  cases h with
  | colour cd v hd hv =>
    by_cases hj : j = cd
    · exact .inr ⟨hj ▸ hd, v, hv, by simp [hj]⟩
    · exact .inl (by simp [readColour_writeColour_ne s v hj])
  | _ => exact .inl rfl

/-- PAL is as before, or its constructor left at most 16 colours, each legal or copied from a register (10_state.md
R25). -/
theorem Ends.pal_cases (h : Ends i s (.next t)) :
    t.pal = s.pal ∨ ConstructsPal i ∧ ∃ p, t.pal = some p ∧ p.cnt ≤ 16 ∧
      ∀ c ∈ p.ent, colourLegal c ∨ ∃ j, readColour s j = some c := by
  cases h with
  | palette p hi hcnt hent => exact .inr ⟨hi, p, rfl, hcnt, hent⟩
  | _ => exact .inl rfl

/-- TILE is as before unless its constructor ran (10_state.md R26). -/
theorem Ends.tile_cases (h : Ends i s (.next t)) : t.tile = s.tile ∨ ConstructsTile i := by
  cases h with
  | tile v hi => exact .inr hi
  | _ => exact .inl rfl

/-- MAP is as before, or its constructor left an entry in it (10_state.md R27). -/
theorem Ends.mapE_cases (h : Ends i s (.next t)) : t.mapE = s.mapE ∨ ConstructsMap i ∧ ∃ e, t.mapE = some e := by
  cases h with
  | entry e hi => exact .inr ⟨hi, e, rfl⟩
  | _ => exact .inl rfl

/-- STAT is as before, or records a fault (10_state.md R28). -/
theorem Ends.stat_cases (h : Ends i s (.next t)) : t.stat = s.stat ∨ ∃ c, t.stat = faultStat c := by
  cases h with
  | fault c => exact .inr ⟨c, rfl⟩
  | _ => exact .inl rfl

/-- The parameters and the host's coming moves are never a command's to change (log entries 1 and 2). -/
theorem Ends.params_inbox_eq (h : Ends i s (.next t)) : t.params = s.params ∧ t.inbox = s.inbox := by
  cases h <;> exact ⟨rfl, rfl⟩

/-- One response is added; the bound on PAL is what keeps a PENC answer's length within RLEN (30_encoding.md R67). -/
theorem Ends.outbox_append (h : Ends i s (.next t)) :
    ∃ r, t.outbox = s.outbox ++ [r] ∧ ((∀ p, s.pal = some p → p.cnt ≤ 16) → responseLegal r) := by
  cases h with
  | fault c => exact ⟨_, rfl, fun _ => responseLegal_faultResponse c⟩
  | answer res hres =>
    refine ⟨_, rfl, fun hpal => responseLegal_okResponse ?_⟩
    obtain hlen | ⟨p, hp, rfl⟩ := hres
    · omega
    · have hcnt := hpal p hp
      rw [palenc_length]
      omega
  | _ => exact ⟨_, rfl, fun _ => responseLegal_okResponse (by simp)⟩

/-! ## The invariant -/

theorem stateInv_withInbox (hs : StateInv s) (ms : List HostMove) : StateInv (withInbox ms s) :=
  ⟨hs.colours, hs.palette, hs.stat, hs.responses⟩

/-- However a command or an illegal packet ends, the invariant is kept. -/
theorem stateInv_of_ends (hs : StateInv s) (h : Ends i s (.next t)) : StateInv t where
  colours j c hc := by
    obtain hsame | ⟨-, v, hv, hnew⟩ := h.readColour_cases j
    · exact hs.colours j c (hsame ▸ hc)
    · obtain rfl : v = c := Option.some.inj (hnew.symm.trans hc)
      exact hv
  palette p hp := by
    obtain hsame | ⟨-, q, hnew, hcnt, hent⟩ := h.pal_cases
    · exact hs.palette p (hsame ▸ hp)
    · obtain rfl : q = p := Option.some.inj (hnew.symm.trans hp)
      refine ⟨hcnt, fun c hc => ?_⟩
      obtain hlegal | ⟨j, hj⟩ := hent c hc
      · exact hlegal
      · exact hs.colours j c hj
  stat := by
    obtain hsame | ⟨c, hc⟩ := h.stat_cases
    · exact hsame ▸ hs.stat
    · exact hc ▸ statLegal_faultStat c
  responses := by
    obtain ⟨r, hout, hlegal⟩ := h.outbox_append
    intro q hq
    rw [hout, List.mem_append, List.mem_singleton] at hq
    obtain hold | rfl := hq
    · exact hs.responses q hold
    · exact hlegal fun p hp => (hs.palette p hp).1

/-- The reset input drops every object and keeps only responses that were legal already (70_reset_and_hazards.md
R180). -/
theorem stateInv_resetInput (hs : StateInv s) : StateInv (resetInput s) where
  colours j c hc := by simp at hc
  palette p hp := by simp at hp
  stat := by simp
  responses := hs.responses

theorem step_of_reset {ms : List HostMove} (h : s.inbox = .reset :: ms) :
    step s = .next (resetInput (withInbox ms s)) := by
  simp only [step, h, fetch]

/-- Settles O40: the reset input apart, a step idles or ends as `Ends` says, and each piece of the invariant follows
from the rule for its piece of state. -/
theorem stepKeepsInvariant : Obligations.StepKeepsInvariant := by
  unfold Obligations.StepKeepsInvariant
  intro s t hs hstep
  by_cases hr : ∃ ms, s.inbox = .reset :: ms
  · obtain ⟨ms, hms⟩ := hr
    rw [step_of_reset hms] at hstep
    cases hstep
    exact stateInv_resetInput (stateInv_withInbox hs ms)
  · obtain rfl | ⟨ms, i, hends⟩ := step_ends hstep (not_exists.1 hr)
    · exact hs
    · exact stateInv_of_ends (stateInv_withInbox hs ms) hends

theorem readColour_reset (j : RegNo) : readColour State.reset j = none := by
  simp [readColour, State.reset]

theorem blankTile_getElem {k : Nat} (hk : k < 32) : blankTile[k] = 0x00 := by
  simp [blankTile]

/-- Settles O8: R35 read off the reset state, register by register. -/
theorem resetStateHoldsResetValues : Obligations.ResetStateHoldsResetValues :=
  ⟨readColour_reset, rfl, fun _ hk => blankTile_getElem hk, rfl, rfl⟩

/-- Settles O41: nothing is held, nothing was answered, and STAT is zero. -/
theorem resetMeetsInvariant : Obligations.ResetMeetsInvariant where
  colours j c hc := by simp [readColour_reset] at hc
  palette p hp := by cases hp
  stat := List.mem_cons_self
  responses r hr := by cases hr

/-! ## What a command changes -/

/-- Only the three constructors of a colour have a destination register. -/
theorem eq_of_colourDest {j : RegNo} (h : colourDest i = some j) :
    (∃ r g b, i = .cq j r g b) ∨ (∃ pay, i = .cdec j pay) ∨ (∃ idx pay, i = .cdecx j idx pay) := by
  cases i with
  | cq cd r g b => cases h; exact .inl ⟨r, g, b, rfl⟩
  | cdec cd pay => cases h; exact .inr (.inl ⟨pay, rfl⟩)
  | cdecx cd idx pay => cases h; exact .inr (.inr ⟨idx, pay, rfl⟩)
  | _ => cases h

/-- Settles O43, by the rule for each piece of state. -/
theorem onlyConstructingCommandsWriteRegisters : Obligations.OnlyConstructingCommandsWriteRegisters := by
  unfold Obligations.OnlyConstructingCommandsWriteRegisters
  intro i s t hexec
  have hends : Ends i s (.next t) := hexec ▸ exec_ends i s
  refine ⟨fun j hj => ?_, fun hne => ?_, fun hne => ?_, fun hne => ?_, hends.params_inbox_eq⟩
  · exact eq_of_colourDest ((hends.readColour_cases j).resolve_left hj).1
  · exact (hends.pal_cases.resolve_left hne).1
  · exact hends.tile_cases.resolve_left hne
  · exact (hends.mapE_cases.resolve_left hne).1

/-- What every command with `P` keeps, a run of such commands keeps. -/
theorem execAll_keeps {α : Type} {f : State → α} {P : Instr → Prop}
    (hkeeps : ∀ i s t, P i → exec i s = .next t → f t = f s) :
    ∀ {is : List Instr} {s t : State}, (∀ i ∈ is, P i) → execAll is s = .next t → f t = f s
  | [], s, t, _, h => by cases h; rfl
  | i :: is, s, t, hP, h => by
    simp only [List.forall_mem_cons] at hP
    simp only [execAll] at h
    split at h
    · next u hu => exact (execAll_keeps hkeeps hP.2 h).trans (hkeeps i s u hP.1 hu)
    · cases h
    · cases h

/-- Settles O51: what O43 says of one command, carried along the run. -/
theorem objectsAreCopies : Obligations.ObjectsAreCopies := by
  unfold Obligations.ObjectsAreCopies
  intro is s t hrun
  refine ⟨fun j hno => execAll_keeps (f := (readColour · j)) (fun i s t hi hexec => ?_) hno hrun,
    fun hno => execAll_keeps (f := State.pal) (fun i s t hi hexec => ?_) hno hrun,
    fun hno => execAll_keeps (f := State.tile) (fun i s t hi hexec => ?_) hno hrun,
    fun hno => execAll_keeps (f := State.mapE) (fun i s t hi hexec => ?_) hno hrun⟩
  all_goals
    obtain ⟨hcol, hpal, htile, hmap, -⟩ := onlyConstructingCommandsWriteRegisters i s t hexec
    by_contra hne
  · obtain ⟨r, g, b, rfl⟩ | ⟨pay, rfl⟩ | ⟨idx, pay, rfl⟩ := hcol j hne
    · exact (hi r g b none 0).1 rfl
    · exact (hi 0 0 0 pay 0).2.1 rfl
    · exact (hi 0 0 0 pay idx).2.2 rfl
  · obtain ⟨pay, rfl⟩ | ⟨pay, rfl⟩ | ⟨n, rfl⟩ | ⟨n, rfl⟩ := hpal hne
    · exact (hi pay 0).1 rfl
    · exact (hi pay 0).2.1 rfl
    · exact (hi none n).2.2.1 rfl
    · exact (hi none n).2.2.2 rfl
  · obtain ⟨pay, rfl⟩ | ⟨pay, rfl⟩ | rfl := htile hne
    · exact (hi pay).1 rfl
    · exact (hi pay).2.1 rfl
    · exact (hi none).2.2 rfl
  · obtain ⟨off, pay, rfl⟩ | ⟨a, p, vf, hf, pri, rfl⟩ := hmap hne
    · exact (hi off pay 0 0 0 0 0).1 rfl
    · exact (hi 0 none a p vf hf pri).2 rfl

/-- Settles O44: a register is left as it was, or holds what its constructor put there. -/
theorem validityIsLostOnlyByReset : Obligations.ValidityIsLostOnlyByReset := by
  unfold Obligations.ValidityIsLostOnlyByReset
  intro s t hstep hr
  obtain rfl | ⟨ms, i, hends⟩ := step_ends hstep hr
  · exact ⟨fun _ h => h, fun h => h, fun h => h⟩
  · refine ⟨fun j hj => ?_, fun hp => ?_, fun hm => ?_⟩
    · obtain hsame | ⟨-, v, -, hnew⟩ := hends.readColour_cases j
      · rwa [hsame]
      · rw [hnew]; rfl
    · obtain hsame | ⟨-, p, hnew, -⟩ := hends.pal_cases
      · rwa [hsame]
      · rw [hnew]; rfl
    · obtain hsame | ⟨-, e, hnew⟩ := hends.mapE_cases
      · rwa [hsame]
      · rw [hnew]; rfl

/-- Settles O45: STAT is kept, or replaced by the record of another fault. -/
theorem faultRecordIsSticky : Obligations.FaultRecordIsSticky := by
  unfold Obligations.FaultRecordIsSticky
  intro s t hstep hr hflt
  obtain rfl | ⟨ms, i, hends⟩ := step_ends hstep hr
  · exact hflt
  · obtain hsame | ⟨c, hc⟩ := hends.stat_cases
    · rwa [hsame]
    · rw [hc]; exact statFlt_faultStat c

/-- Two like endings from like objects leave like objects and the same response. -/
theorem SameEnd.next {o o' : Outcome} (h : SameEnd s s' o o') (hobj : sameObjects s s') :
    ∃ t t' r, o = .next t ∧ o' = .next t' ∧ sameObjects t t' ∧ t.outbox = s.outbox ++ [r] ∧
      t'.outbox = s'.outbox ++ [r] ∧ ((t.stat = s.stat ∧ t'.stat = s'.stat) ∨ t'.stat = t.stat) := by
  obtain ⟨hcol, hpal, htile, hmap⟩ := hobj
  cases h with
  | fault c => exact ⟨_, _, _, rfl, rfl, ⟨hcol, hpal, htile, hmap⟩, rfl, rfl, .inr rfl⟩
  | answer res => exact ⟨_, _, _, rfl, rfl, ⟨hcol, hpal, htile, hmap⟩, rfl, rfl, .inl ⟨rfl, rfl⟩⟩
  | colour cd v => exact ⟨_, _, _, rfl, rfl, ⟨by simp [hcol], hpal, htile, hmap⟩, rfl, rfl, .inl ⟨rfl, rfl⟩⟩
  | palette p => exact ⟨_, _, _, rfl, rfl, ⟨hcol, rfl, htile, hmap⟩, rfl, rfl, .inl ⟨rfl, rfl⟩⟩
  | tile v => exact ⟨_, _, _, rfl, rfl, ⟨hcol, hpal, rfl, hmap⟩, rfl, rfl, .inl ⟨rfl, rfl⟩⟩
  | entry e => exact ⟨_, _, _, rfl, rfl, ⟨hcol, hpal, htile, rfl⟩, rfl, rfl, .inl ⟨rfl, rfl⟩⟩

/-- Settles O46: a command ends alike in the two states, since its checks read objects and parameters alone. -/
theorem commandIgnoresFaultRecord : Obligations.CommandIgnoresFaultRecord := by
  unfold Obligations.CommandIgnoresFaultRecord
  intro i s s' hobj hparams
  exact (exec_same i hobj hparams).next hobj

/-- Settles O14: the register holds the decoded word, or the quantised channels, whatever it held before. -/
theorem inDomainExactlyFromConventionalWords : Obligations.InDomainExactlyFromConventionalWords := by
  unfold Obligations.InDomainExactlyFromConventionalWords
  intro s cd b0 b1 r g b
  refine ⟨?cdec, fun idx bytes h => ?cdecx, ?cq⟩
  case cdec => exact ⟨_, _, exec_cdec_pair cd b0 b1 s, by simp, inDomain_coldec_iff _ _⟩
  case cdecx => exact ⟨_, _, exec_cdecx_slot cd idx h s, by simp, inDomain_coldec_iff _ _⟩
  case cq => exact ⟨_, _, exec_cq cd r g b s, by simp, inDomain_quantised r g b⟩

/-! ## The observation port (10_state.md R36), field by field -/

variable (any : PortView)

theorem observe_colV {k : Nat} (hk : k < 32) : (observe any s).colV[k] = s.col[k].isSome := by
  simp [observe]

theorem observe_col {k : Nat} (hk : k < 32) : (observe any s).col[k] = s.col[k].getD any.col[k] := by
  simp [observe]

theorem observe_cnt {p : Palette} (hp : s.pal = some p) (hcnt : p.cnt ≤ 16) : (observe any s).cnt.toNat = p.cnt := by
  simp only [observe, hp, BitVec.toNat_ofNat]
  omega

theorem observe_ent {p : Palette} (hp : s.pal = some p) {k : Nat} (hk : k < 16) :
    (observe any s).ent[k] = p.ent[k]?.getD any.ent[k] := by
  simp [observe, hp]

theorem observe_pal_none (hp : s.pal = none) :
    (observe any s).cnt = any.cnt ∧ (observe any s).ent = any.ent := by
  simp [observe, hp]

theorem observe_mapE : (observe any s).mapE = s.mapE.getD any.mapE := rfl

/-- Settles O52; the choice under which every unspecified field shows `v` is `v` itself. -/
theorem portShowsEveryDefinedField : Obligations.PortShowsEveryDefinedField := by
  unfold Obligations.PortShowsEveryDefinedField
  intro s
  refine ⟨fun any => ⟨fun k hk => ⟨observe_colV any hk, fun c hc => ?_⟩, rfl,
      fun p hp hcnt => ⟨observe_cnt any hp hcnt, fun k hk c hc => ?_⟩, rfl, rfl, fun e he => ?_, rfl⟩,
    fun v => ⟨v, fun k hk hnone => ?_, observe_pal_none v, fun p hp k hk hcnt => ?_, fun hnone => ?_⟩⟩
  · rw [observe_col, hc, Option.getD_some]
  · rw [observe_ent any hp, hc, Option.getD_some]
  · rw [observe_mapE, he, Option.getD_some]
  · rw [observe_col, hnone, Option.getD_none]
  · rw [observe_ent v hp, List.getElem?_eq_none hcnt, Option.getD_none]
  · rw [observe_mapE, hnone, Option.getD_none]

end Sys2Proof.Machine
end

section
/-! PROOFS. The memory family (spec 20_memory.md R50, R53): a packet of the stream is one step of the command it
encodes, a stream of packets is its commands in order, and a command sent again does nothing new. -/

namespace Sys2Proof

open Sys2Proof.Safety

/-! ## A command's packet decodes to it (30_encoding.md R60 to R65) -/

theorem headerFor_eq_mkHeader (i : Instr) :
    ∃ arg, headerFor i = mkHeader (opcodeOf i) i.payload.isSome (payLen i.payload) arg := by
  cases i <;> exact ⟨_, rfl⟩

/-- Every command has its row: the header has the row's fixed bits, and the row builds the command from it (R64). -/
theorem exists_row_headerFor (i : Instr) :
    ∃ row, rows.find? (fun r => r.opc == opcodeOf i) = some row ∧ headerFor i &&& row.mask = row.fixed ∧
      row.build (headerFor i) i.payload = i := by
  cases i with
  | cq cd r g b => exact ⟨_, rfl, fixed_cq cd r g b, by simp [headerFor, plainHeader]⟩
  | cdec cd pay => exact ⟨_, rfl, fixed_cdec _ _ cd, by simp [headerFor, payHeader, Instr.payload]⟩
  | cdecx cd idx pay => exact ⟨_, rfl, fixed_cdecx _ _ cd idx, by simp [headerFor, payHeader, Instr.payload]⟩
  | cenc cs => exact ⟨_, rfl, fixed_cenc cs, by simp [headerFor, plainHeader]⟩
  | pdecF pay => exact ⟨_, rfl, fixed_pdecF _ _, rfl⟩
  | pdecV pay => exact ⟨_, rfl, fixed_pdecV _ _, rfl⟩
  | pldF n => exact ⟨_, rfl, fixed_pldF n, by simp [headerFor, plainHeader]⟩
  | pldV n => exact ⟨_, rfl, fixed_pldV n, by simp [headerFor, plainHeader]⟩
  | penc => exact ⟨_, rfl, by decide, rfl⟩
  | tld pay => exact ⟨_, rfl, fixed_tld _ _, rfl⟩
  | tpk pay => exact ⟨_, rfl, fixed_tpk _ _, rfl⟩
  | tunpk => exact ⟨_, rfl, by decide, rfl⟩
  | tst => exact ⟨_, rfl, by decide, rfl⟩
  | tclr => exact ⟨_, rfl, by decide, rfl⟩
  | mdec off pay => exact ⟨_, rfl, fixed_mdec _ _ off, by simp [headerFor, payHeader, Instr.payload]⟩
  | menc => exact ⟨_, rfl, by decide, rfl⟩
  | mmk t p vf hf pri => exact ⟨_, rfl, fixed_mmk t p vf hf pri, by simp [headerFor, plainHeader]⟩

theorem decodeHeader_headerFor (i : Instr) : decodeHeader (headerFor i) (i.payload.getD []) = .ok i := by
  obtain ⟨arg, hh⟩ := headerFor_eq_mkHeader i
  obtain ⟨row, hrow, hfixed, hbuild⟩ := exists_row_headerFor i
  have hopc : opcOf (headerFor i) = opcodeOf i := by rw [hh, opcOf_mkHeader]
  have hp : pOf (headerFor i) = i.payload.isSome := by rw [hh, pOf_mkHeader]
  have hlen : lenOf (headerFor i) = payLen i.payload := by rw [hh, lenOf_mkHeader]
  have hlegal : pOf (headerFor i) = true ∨ lenOf (headerFor i) = 0 := by
    rw [hp, hlen]
    cases i.payload with
    | none => exact .inr rfl
    | some bytes => exact .inl rfl
  have hpay : (if i.payload.isSome then some (i.payload.getD []) else none) = i.payload := by
    cases i.payload <;> rfl
  rw [decodeHeader_of_row _ hopc hrow hfixed hlegal, hp, hpay, hbuild]

/-- The decoder reads a command back from its packet, whatever bytes follow. -/
theorem decode_encode_append {i : Instr} (hi : i.WellFormed) (rest : List Byte) :
    decode (encode i ++ rest) = .instr i rest := by
  obtain ⟨arg, hh⟩ := headerFor_eq_mkHeader i
  have hlen : (lenOf (headerFor i)).toNat = (i.payload.getD []).length := by
    rw [hh, lenOf_mkHeader, payLen_toNat hi]
  rw [encode, List.append_assoc, decode_headerBytes, Machine.decodeBody_append hlen.le, hlen, List.take_length,
    List.drop_length, decodeHeader_headerFor, List.nil_append]

theorem decode_encode {i : Instr} (hi : i.WellFormed) : decode (encode i) = .instr i [] := by
  simpa using decode_encode_append hi []

end Sys2Proof

namespace Sys2Proof.Machine

open Sys2Proof.Safety

variable {i : Instr} {s s' t : State}

/-! ## The stream -/

/-- Settles O5: the packet at the front of the inbox is what is fetched. -/
theorem stepRunsDecodedInstruction : Obligations.StepRunsDecodedInstruction := by
  unfold Obligations.StepRunsDecodedInstruction
  intro s bytes i ms hdec hin
  simp only [step, hin, fetch_of_instr hdec]

theorem Ends.exists_next {o : Outcome} (h : Ends i s o) : ∃ t, o = .next t := by
  cases h <;> exact ⟨_, rfl⟩

/-- A command neither reads nor writes the host's coming moves (10_state.md R31), so other moves give the same end. -/
theorem exec_withInbox (h : exec i s = .next t) (ms : List HostMove) :
    exec i (withInbox ms s) = .next (withInbox ms t) := by
  have hsame : SameEnd s (withInbox ms s) (exec i s) (exec i (withInbox ms s)) :=
    exec_same i ⟨rfl, rfl, rfl, rfl⟩ rfl
  rw [h] at hsame
  generalize exec i (withInbox ms s) = o at hsame
  cases hsame <;> rfl

theorem withInbox_of_inbox_eq {ms : List HostMove} (h : s.inbox = ms) : withInbox ms s = s := by
  subst h; rfl

theorem run_succ_of_next {M : Host.Core} {s t : M.State} (h : M.step s = .next t) (k : Nat) :
    M.run (k + 1) s = M.run k t := by
  rw [Host.Core.run, h]

theorem execAll_cons_of_next (h : exec i s = .next t) (is : List Instr) : execAll (i :: is) s = execAll is t := by
  rw [execAll, h]

/-- Settles O49, by induction on the commands: each step takes the first packet, and its command leaves the packets
after it in the inbox. -/
theorem streamRunsInIssueOrder : Obligations.StreamRunsInIssueOrder := by
  unfold Obligations.StreamRunsInIssueOrder
  intro is
  induction is with
  | nil =>
    intro s ms _ hin
    exact congrArg Host.Outcome.next (withInbox_of_inbox_eq hin).symm
  | cons i is ih =>
    intro s ms hwf hin
    obtain ⟨hi, his⟩ := List.forall_mem_cons.1 hwf
    rw [List.flatMap_cons, sendBytes_append, List.append_assoc] at hin
    have hstep := stepRunsDecodedInstruction s _ i _ (decode_encode hi) hin
    obtain ⟨t, ht⟩ := (exec_ends i (withInbox (sendBytes (is.flatMap encode) ++ ms) s)).exists_next
    have hends : Ends i _ (.next t) := ht ▸ exec_ends i _
    have hfirst := run_succ_of_next (M := core) (hstep.trans ht) is.length
    have hrest := ih t ms his hends.params_inbox_eq.2
    have hall := execAll_cons_of_next (exec_withInbox ht ms) is
    exact hfirst.trans (hrest.trans hall.symm)

/-! ## The same command twice: no command reads the register it writes -/

theorem withPayload_same (pay : Payload) {k k' : List Byte → Outcome}
    (h : ∀ bytes, SameEnd s s' (k bytes) (k' bytes)) : SameEnd s s' (withPayload pay s k) (withPayload pay s' k') := by
  cases pay with
  | none => exact .fault _
  | some bytes => exact h bytes

/-- A constructor of a colour reads no state at all (40_color.md R84 to R86). -/
theorem exec_same_of_colourDest {cd : RegNo} (h : colourDest i = some cd) (s s' : State) :
    SameEnd s s' (exec i s) (exec i s') := by
  obtain ⟨r, g, b, rfl⟩ | ⟨pay, rfl⟩ | ⟨idx, pay, rfl⟩ := eq_of_colourDest h
  · exact .colour ..
  · refine withPayload_same pay fun bytes => ?_
    split
    exacts [.colour .., .fault _]
  · refine withPayload_same pay fun bytes => ?_
    split
    exacts [.colour .., .fault _]

/-- A constructor of PAL reads at most the colour registers (41_palette.md R103 to R106). -/
theorem exec_same_of_constructsPal (h : ConstructsPal i) (hcol : s'.col = s.col) :
    SameEnd s s' (exec i s) (exec i s') := by
  obtain ⟨pay, rfl⟩ | ⟨pay, rfl⟩ | ⟨n, rfl⟩ | ⟨n, rfl⟩ := h
  · refine withPayload_same pay fun bytes => ?_
    split
    exacts [.palette _, .fault _]
  · refine withPayload_same pay fun bytes => ?_
    split
    exacts [.fault _, .palette _]
  · simp only [exec, execPldF]
    split
    · exact .fault _
    · split
      exacts [.fault _, loadCollection_same hcol _]
  · simp only [exec, execPldV]
    split
    exacts [.fault _, loadCollection_same hcol _]

/-- A constructor of TILE reads at most the parameters (42_tile.md R124, R125, R128). -/
theorem exec_same_of_constructsTile (h : ConstructsTile i) (hp : s'.params = s.params) :
    SameEnd s s' (exec i s) (exec i s') := by
  obtain ⟨pay, rfl⟩ | ⟨pay, rfl⟩ | rfl := h
  · refine withPayload_same pay fun bytes => ?_
    split
    exacts [.tile _, .fault _]
  · refine withPayload_same pay fun bytes => ?_
    rw [hp]
    split
    exacts [.tile _, .fault _]
  · exact .tile _

/-- A constructor of MAP reads at most the parameters (43_mapping.md R144, R146). -/
theorem exec_same_of_constructsMap (h : ConstructsMap i) (hp : s'.params = s.params) :
    SameEnd s s' (exec i s) (exec i s') := by
  obtain ⟨off, pay, rfl⟩ | ⟨a, p, vf, hf, pri, rfl⟩ := h
  · refine withPayload_same pay fun bytes => ?_
    split
    exacts [.entry _, .fault _]
  · simp only [exec, execMmk, hp]
    split
    exacts [.entry _, .fault _]

/-- A command sent again ends as it did the first time: it wrote no register, or one that it does not read. -/
theorem exec_same_again (h : exec i s = .next t) : SameEnd s t (exec i s) (exec i t) := by
  have hends : Ends i s (.next t) := h ▸ exec_ends i s
  cases hends with
  | fault | answer => exact exec_same i ⟨rfl, rfl, rfl, rfl⟩ rfl
  | colour cd v hd => exact exec_same_of_colourDest hd _ _
  | palette p hi => exact exec_same_of_constructsPal hi rfl
  | tile v hi => exact exec_same_of_constructsTile hi rfl
  | entry e hi => exact exec_same_of_constructsMap hi rfl

/-- The same ending once more, from the state the first one left, writes only what is there already. -/
theorem SameEnd.again {o : Outcome} (h : SameEnd s t (.next t) o) :
    ∃ u r, o = .next u ∧ sameObjects t u ∧ u.stat = t.stat ∧
      t.outbox = s.outbox ++ [r] ∧ u.outbox = t.outbox ++ [r] := by
  cases h with
  | colour cd v => exact ⟨_, _, rfl, ⟨by simp, rfl, rfl, rfl⟩, rfl, rfl, rfl⟩
  | _ => exact ⟨_, _, rfl, ⟨rfl, rfl, rfl, rfl⟩, rfl, rfl, rfl⟩

/-- Settles O47: the second run ends as the first, and that ending changes no register and not STAT. -/
theorem sameCommandTwiceIsIdempotent : Obligations.SameCommandTwiceIsIdempotent := by
  unfold Obligations.SameCommandTwiceIsIdempotent
  intro i s t hexec
  have hagain := exec_same_again hexec
  rw [hexec] at hagain
  exact hagain.again

end Sys2Proof.Machine
end

section
/-! PROOFS. The encoding family (spec 30_encoding.md R60 to R65, R69, R70): the decoder's table row by row, the encoder
and the decoder as inverses of each other, the stream's packets, and what the assembler makes. -/

namespace Sys2Proof

open Sys2Proof.Safety

variable {h : BitVec 64} {pay : List Byte} {row : Row}

/-! ## The table (R64) -/

/-- The decoder's table is the spec's. -/
theorem rows_eq_opcodeMap : rows.map (fun row => (row.opc, row.fixed, row.mask)) = opcodeMap := rfl

theorem nodup_rows_opc : (rows.map Row.opc).Nodup := by decide

/-- Every row fixes the whole of `OPC`, at its own opcode. -/
theorem opcOf_mask_fixed : ∀ row ∈ rows, opcOf row.mask = BitVec.allOnes 8 ∧ opcOf row.fixed = row.opc := by decide

theorem opcOf_of_fixed (hrow : row ∈ rows) (hm : h &&& row.mask = row.fixed) : opcOf h = row.opc := by
  obtain ⟨hmask, hfixed⟩ := opcOf_mask_fixed row hrow
  have hand : opcOf (h &&& row.mask) = opcOf h &&& opcOf row.mask := BitVec.extractLsb'_and
  rw [hm, hfixed, hmask, BitVec.and_allOnes] at hand
  exact hand.symm

/-- A row is the one its own opcode selects, since no two rows share an opcode. -/
theorem find?_rows_opc (hrow : row ∈ rows) : rows.find? (fun r => r.opc == row.opc) = some row := by
  cases hfind : rows.find? (fun r => r.opc == row.opc) with
  | none => exact absurd (beq_self_eq_true row.opc) (List.find?_eq_none.1 hfind row hrow)
  | some found =>
    have hopc : found.opc = row.opc := by simpa using List.find?_some hfind
    rw [List.inj_on_of_nodup_map nodup_rows_opc (List.mem_of_find?_eq_some hfind) hrow hopc]

/-- A match fixes the opcode, so a header matches at most as many rows as have its opcode. -/
theorem matching_rows_le_one (h : BitVec 64) :
    (rows.filter fun row => h &&& row.mask == row.fixed).length ≤ 1 :=
  calc (rows.filter fun row => h &&& row.mask == row.fixed).length
      = rows.countP fun row => h &&& row.mask == row.fixed := List.countP_eq_length_filter.symm
    _ ≤ rows.countP fun row => row.opc == opcOf h :=
        List.countP_mono_left fun row hrow hm => by simp [opcOf_of_fixed hrow (by simpa using hm)]
    _ = (rows.map Row.opc).count (opcOf h) := by rw [List.count, List.countP_map]; rfl
    _ ≤ 1 := List.nodup_iff_count_le_one.1 nodup_rows_opc _

/-- Settles O4: a header that matches a row has its opcode, which selects that row and no other. -/
theorem noHeaderMatchesTwoRows : Obligations.NoHeaderMatchesTwoRows :=
  ⟨rows_eq_opcodeMap, fun h => ⟨matching_rows_le_one h, fun row hrow hm hp _ =>
    decodeHeader_of_row row.opc (opcOf_of_fixed hrow hm) (find?_rows_opc hrow) hm hp⟩⟩

/-! ## The decoder's three rejections (R65) -/

theorem decodeHeader_of_opcode (hrow : rows.find? (fun r => r.opc == opcOf h) = none) :
    decodeHeader h pay = .error .opcode := by
  rw [decodeHeader, hrow]

theorem decodeHeader_of_ne_fixed (hrow : rows.find? (fun r => r.opc == opcOf h) = some row)
    (hm : h &&& row.mask ≠ row.fixed) : decodeHeader h pay = .error .field := by
  rw [decodeHeader, hrow]
  exact if_pos (by simpa using hm)

theorem decodeHeader_of_absent_len (hrow : rows.find? (fun r => r.opc == opcOf h) = some row)
    (hm : h &&& row.mask = row.fixed) (hp : pOf h = false) (hl : lenOf h ≠ 0) :
    decodeHeader h pay = .error .field := by
  rw [decodeHeader, hrow]
  simpa [hm, hp] using hl

/-! ## What a header is decoded to has that header (R62, R64) -/

/-- The input of a command whose packet has this header and these payload bytes (20_memory.md R40). -/
abbrev sentPayload (h : BitVec 64) (pay : List Byte) : Payload := if pOf h then some pay else none

/-- A packet's `P` and `LEN`, and the bytes after its header, agree: `LEN` counts the bytes, and `P = 0` has none
(R65 step 3). -/
structure PayloadAgrees (h : BitVec 64) (pay : List Byte) : Prop where
  length : pay.length = (lenOf h).toNat
  absent : pOf h = true ∨ lenOf h = 0

theorem PayloadAgrees.getD_sentPayload (ha : PayloadAgrees h pay) : (sentPayload h pay).getD [] = pay := by
  cases hp : pOf h with
  | true => simp [sentPayload, hp]
  | false =>
    have hl : lenOf h = 0 := ha.absent.resolve_left (by simp [hp])
    have hpay : pay = [] := List.eq_nil_of_length_eq_zero (by simp [ha.length, hl])
    simp [sentPayload, hp, hpay]

/-- The encoder gives such a payload the header's own `P` and `LEN`. -/
theorem PayloadAgrees.payHeader_sentPayload (ha : PayloadAgrees h pay) (opc : BitVec 8) (arg : BitVec 32) :
    payHeader opc (sentPayload h pay) arg = mkHeader opc (pOf h) (lenOf h) arg := by
  have hsome : (sentPayload h pay).isSome = pOf h := by cases hp : pOf h <;> simp [sentPayload, hp]
  have hlen : payLen (sentPayload h pay) = lenOf h := by simp [payLen, ha.getD_sentPayload, ha.length]
  rw [payHeader, hsome, hlen]

/-- A row whose format takes no payload fixes `P = 0`. -/
theorem sentPayload_of_fixed {m f : BitVec 64} (hm : h &&& m = f) (hmask : m.getLsbD 55 = true)
    (hfixed : f.getLsbD 55 = false) : sentPayload h pay = none := by
  have hbit := getLsbD_of_fixed hm 55
  rw [hmask, hfixed, Bool.and_true] at hbit
  have hp : pOf h = false := hbit
  simp [sentPayload, hp]

/-- A header all of whose bits are fixed. -/
theorem eq_of_all_fixed {f : BitVec 64} (hm : h &&& 0xFFFFFFFFFFFFFFFF#64 = f) : f = h := by
  rw [← hm]
  exact BitVec.and_allOnes

/-- The command a row builds from a header that matches it has that header, and the payload it was sent with. -/
theorem headerFor_build (hrow : row ∈ rows) (ha : PayloadAgrees h pay) (hm : h &&& row.mask = row.fixed) :
    headerFor (row.build h (sentPayload h pay)) = h ∧
      (row.build h (sentPayload h pay)).payload = sentPayload h pay := by
  revert row
  simp only [rows, colourRows, paletteRows, tileRows, mappingRows, List.cons_append, List.nil_append,
    List.forall_mem_cons]
  refine ⟨fun hm => ?cq, fun hm => ?cdec, fun hm => ?cdecx, fun hm => ?cenc, fun hm => ?pdecF, fun hm => ?pdecV,
    fun hm => ?pldF, fun hm => ?pldV, fun hm => ?penc, fun hm => ?tld, fun hm => ?tpk, fun hm => ?tunpk,
    fun hm => ?tst, fun hm => ?tclr, fun hm => ?mdec, fun hm => ?menc, fun hm => ?mmk, by simp⟩
  case cq => exact ⟨rebuild_cq h hm, (sentPayload_of_fixed hm rfl rfl).symm⟩
  case cdec => exact ⟨(ha.payHeader_sentPayload ..).trans (rebuild_cdec h hm), rfl⟩
  case cdecx => exact ⟨(ha.payHeader_sentPayload ..).trans (rebuild_cdecx h hm), rfl⟩
  case cenc => exact ⟨rebuild_cenc h hm, (sentPayload_of_fixed hm rfl rfl).symm⟩
  case pdecF => exact ⟨(ha.payHeader_sentPayload ..).trans (rebuild_pdecF h hm), rfl⟩
  case pdecV => exact ⟨(ha.payHeader_sentPayload ..).trans (rebuild_pdecV h hm), rfl⟩
  case pldF => exact ⟨rebuild_pldF h hm, (sentPayload_of_fixed hm rfl rfl).symm⟩
  case pldV => exact ⟨rebuild_pldV h hm, (sentPayload_of_fixed hm rfl rfl).symm⟩
  case tld => exact ⟨(ha.payHeader_sentPayload ..).trans (rebuild_tld h hm), rfl⟩
  case tpk => exact ⟨(ha.payHeader_sentPayload ..).trans (rebuild_tpk h hm), rfl⟩
  case mdec => exact ⟨(ha.payHeader_sentPayload ..).trans (rebuild_mdec h hm), rfl⟩
  case mmk => exact ⟨rebuild_mmk h hm, (sentPayload_of_fixed hm rfl rfl).symm⟩
  case penc | tunpk | tst | tclr | menc =>
    exact ⟨eq_of_all_fixed hm, (sentPayload_of_fixed hm rfl rfl).symm⟩

theorem opcodeOf_of_headerFor {i : Instr} (hi : headerFor i = h) : opcodeOf i = opcOf h := by
  obtain ⟨arg, harg⟩ := headerFor_eq_mkHeader i
  rw [← hi, harg, opcOf_mkHeader]

/-- A legal packet is the encoding of the one command it is decoded to (R65 step 4). -/
theorem encode_of_decodeHeader {i : Instr} (hlen : pay.length = (lenOf h).toNat) (hd : decodeHeader h pay = .ok i) :
    opcodeOf i = opcOf h ∧ i.payload = sentPayload h pay ∧ encode i = headerBytes h ++ pay := by
  obtain ⟨row, hfind, hm, hp, rfl⟩ := row_of_decodeHeader hd
  have ha : PayloadAgrees h pay := ⟨hlen, hp⟩
  obtain ⟨hheader, hpay⟩ := headerFor_build (List.mem_of_find?_eq_some hfind) ha hm
  exact ⟨opcodeOf_of_headerFor hheader, hpay, by rw [encode, hheader, hpay, ha.getD_sentPayload]⟩

/-! ## Encoder and decoder undo each other -/

/-- Settles O1: the header selects the command's row, whose fields hold its operands. -/
theorem decodeUndoesEncode : Obligations.DecodeUndoesEncode := fun _ rest hi => decode_encode_append hi rest

theorem headerBytes_joinHeader (b7 b6 b5 b4 b3 b2 b1 b0 : Byte) :
    headerBytes (joinHeader b7 b6 b5 b4 b3 b2 b1 b0) = [b7, b6, b5, b4, b3, b2, b1, b0] := by
  simp only [headerBytes, joinHeader, List.cons.injEq, and_true]
  refine ⟨?_, ?_, ?_, ?_, ?_, ?_, ?_, ?_⟩ <;>
  · apply BitVec.eq_of_getLsbD_eq
    intro k hk
    simp only [BitVec.getLsbD_append, BitVec.getLsbD_extractLsb']
    interval_cases k <;> simp

/-- What a legal packet says, said backwards: a header, its `LEN` payload bytes, and what follows (R60). -/
theorem packet_of_decode {bytes rest : List Byte} {i : Instr} (hd : decode bytes = .instr i rest) :
    ∃ h pay, bytes = headerBytes h ++ pay ++ rest ∧ pay.length = (lenOf h).toNat ∧ decodeHeader h pay = .ok i := by
  unfold decode at hd
  split at hd
  · next b7 b6 b5 b4 b3 b2 b1 b0 tail =>
    unfold decodeBody at hd
    split at hd
    · cases hd
    · next hlen =>
      split at hd
      · next hok =>
        cases hd
        refine ⟨_, _, ?_, List.length_take_of_le (by omega), hok⟩
        rw [headerBytes_joinHeader, List.append_assoc, List.take_append_drop]
        rfl
      · cases hd
  · cases hd

theorem wellFormed_of_sentPayload {i : Instr} (hlen : pay.length = (lenOf h).toNat)
    (hpay : i.payload = sentPayload h pay) : i.WellFormed := by
  have hle : pay.length ≤ Config.maxPayload := by
    have := (lenOf h).isLt
    simp only [Config.maxPayload]
    omega
  rw [Instr.WellFormed, hpay]
  cases hp : pOf h <;> simp [sentPayload, hp, payloadFits, hle]

/-- Settles O2: the bytes are a header, its payload and the rest, and the encoder makes that header and payload of the
command the header selects. -/
theorem legalPacketIsItsEncoding : Obligations.LegalPacketIsItsEncoding := by
  unfold Obligations.LegalPacketIsItsEncoding
  intro bytes rest i hd
  obtain ⟨h, pay, hbytes, hlen, hok⟩ := packet_of_decode hd
  obtain ⟨-, hpay, henc⟩ := encode_of_decodeHeader hlen hok
  exact ⟨wellFormed_of_sentPayload hlen hpay, by rw [hbytes, henc]⟩

/-- Settles O3: each packet is short enough to decode by evaluation. -/
theorem specPacketsDecode : Obligations.SpecPacketsDecode := by
  unfold Obligations.SpecPacketsDecode
  decide

end Sys2Proof

namespace Sys2Proof.Machine

open Sys2Proof.Safety

variable {s : State} {h : BitVec 64} {pay : List Byte} {ms : List HostMove}

/-! ## One packet at the front of the stream (R60) -/

/-- A header and its `LEN` bytes decode as the header does, with nothing left over. -/
theorem decode_packet (hlen : pay.length = (lenOf h).toNat) :
    (∀ i, decodeHeader h pay = .ok i → decode (headerBytes h ++ pay) = .instr i []) ∧
    (∀ c, decodeHeader h pay = .error c → decode (headerBytes h ++ pay) = .illegal c []) := by
  rw [decode_headerBytes, decodeBody, if_neg (by omega), ← hlen, List.take_length, List.drop_length]
  exact ⟨fun i hd => by rw [hd], fun c hd => by rw [hd]⟩

theorem step_of_legal_packet {i : Instr} (hlen : pay.length = (lenOf h).toNat)
    (hin : s.inbox = sendBytes (headerBytes h ++ pay) ++ ms) (hd : decodeHeader h pay = .ok i) :
    step s = exec i (withInbox ms s) :=
  stepRunsDecodedInstruction s _ i ms ((decode_packet hlen).1 i hd) hin

theorem step_of_illegal_packet {c : Cause} (hlen : pay.length = (lenOf h).toNat)
    (hin : s.inbox = sendBytes (headerBytes h ++ pay) ++ ms) (hd : decodeHeader h pay = .error c) :
    step s = raiseFault c (withInbox ms s) := by
  simp only [step, hin, fetch_of_illegal ((decode_packet hlen).2 c hd)]

/-- Whatever its header, a packet is consumed whole and ends as some command ends. -/
theorem step_packet_ends (hlen : pay.length = (lenOf h).toNat)
    (hin : s.inbox = sendBytes (headerBytes h ++ pay) ++ ms) : ∃ i, Ends i (withInbox ms s) (step s) := by
  cases hd : decodeHeader h pay with
  | ok i => exact ⟨i, step_of_legal_packet hlen hin hd ▸ exec_ends i _⟩
  | error c => exact ⟨.penc, step_of_illegal_packet hlen hin hd ▸ Ends.fault c⟩

/-- Settles O7: of the ways a command ends, each keeps the coming moves and adds one response. -/
theorem everyPacketIsConsumedAndAnsweredOnce : Obligations.EveryPacketIsConsumedAndAnsweredOnce := by
  unfold Obligations.EveryPacketIsConsumedAndAnsweredOnce
  intro s h pay ms hlen hin hpal
  obtain ⟨i, hends⟩ := step_packet_ends hlen hin
  obtain ⟨t, ht⟩ := hends.exists_next
  rw [ht] at hends
  obtain ⟨r, hout, hlegal⟩ := hends.outbox_append
  exact ⟨t, r, ht, hends.params_inbox_eq.2, hout, hlegal fun p hp => (hpal p hp).1⟩

/-- Settles O6: the spec's table selects the row the decoder selects, and on that row the three conditions are the
decoder's own. -/
theorem headerDecodesOrFaultsInOrder : Obligations.HeaderDecodesOrFaultsInOrder := by
  unfold Obligations.HeaderDecodesOrFaultsInOrder
  intro s h pay ms hlen hin
  have hfault {c : Cause} (hd : decodeHeader h pay = .error c) :
      faultsAs (causeStatus c) (causeCode c) (withInbox ms s) (step s) :=
    step_of_illegal_packet hlen hin hd ▸ faultsAs_raiseFault c _
  rw [← rows_eq_opcodeMap, List.find?_map]
  cases hfind : rows.find? (fun r => r.opc == opcOf h) with
  | none =>
    simp only [Function.comp_def, hfind, Option.map_none]
    exact hfault (decodeHeader_of_opcode hfind)
  | some row =>
    simp only [Function.comp_def, hfind, Option.map_some]
    split
    · next hm => exact hfault (decodeHeader_of_ne_fixed hfind hm)
    · next hm =>
      rw [not_not] at hm
      split
      · next hp => exact hfault (decodeHeader_of_absent_len hfind hm hp.1 hp.2)
      · next hp =>
        have hlegal : pOf h = true ∨ lenOf h = 0 := by
          rwa [not_and_or, Bool.not_eq_false, not_not] at hp
        have hd := decodeHeader_of_row (pay := pay) (opcOf h) rfl hfind hm hlegal
        obtain ⟨hopc, hpay, henc⟩ := encode_of_decodeHeader hlen hd
        exact ⟨_, hopc, hpay, henc, step_of_legal_packet hlen hin hd⟩

/-! ## The assembler (R69, R70) -/

/-- A form whose commands all have payloads that `LEN` can count, when its operands do. -/
def FormFits (form : Form) : Prop := ∀ os, (∀ o ∈ os, fits o) → allFit (form.2 os)

theorem allFit_none : allFit none := fun _ h => by cases h

theorem allFit_singleton {i : Instr} (hi : i.WellFormed) : allFit (some [i]) := by
  intro is h
  cases h
  simpa using hi

theorem allFit_bind {α : Type} {o : Option α} {k : α → Option (List Instr)} (hk : ∀ a, allFit (k a)) :
    allFit (o.bind k) := by
  cases o with
  | none => exact allFit_none
  | some a => exact hk a

theorem colourForms_fit : ∀ form ∈ colourForms, FormFits form := by
  simp only [colourForms, List.forall_mem_cons]
  refine ⟨fun os hos => ?cq, fun os hos => ?cdec, fun os hos => ?cdecx, fun os hos => ?cenc, by simp⟩
  case cq =>
    dsimp only
    split
    · exact allFit_bind fun r => allFit_bind fun g => allFit_bind fun b => allFit_singleton rfl
    · exact allFit_none
  case cdec =>
    dsimp only
    split
    · next p => exact allFit_singleton (hos (.pay p) (by simp))
    · exact allFit_none
  case cdecx =>
    dsimp only
    split
    · next p => exact allFit_bind fun idx => allFit_singleton (hos (.pay p) (by simp))
    · exact allFit_none
  case cenc =>
    dsimp only
    split
    · exact allFit_singleton rfl
    · exact allFit_none

theorem payloadForm_fits (mnemonic : List Char) {mk : Payload → List Instr}
    (hk : ∀ p, payloadFits p = true → ∀ i ∈ mk p, i.WellFormed) : FormFits (payloadForm mnemonic mk) :=
  fun _ => payloadForm_allFit mnemonic hk

theorem plainForm_fits (mnemonic : List Char) {i : Instr} (hi : i.WellFormed) : FormFits (plainForm mnemonic i) :=
  fun os _ => plainForm_allFit mnemonic hi os

theorem countForm_fits (mnemonic : List Char) {mk : BitVec 6 → Instr} (hi : ∀ n, (mk n).WellFormed) :
    FormFits (countForm mnemonic mk) :=
  fun os _ => countForm_allFit mnemonic hi os

theorem paletteForms_fit : ∀ form ∈ paletteForms, FormFits form := by
  simp only [paletteForms, List.forall_mem_cons]
  exact ⟨payloadForm_fits _ fun _ hp => List.forall_mem_singleton.2 hp,
    payloadForm_fits _ fun _ hp => List.forall_mem_singleton.2 hp, countForm_fits _ fun _ => rfl,
    countForm_fits _ fun _ => rfl, plainForm_fits _ rfl, by simp⟩

theorem tileForms_fit : ∀ form ∈ tileForms, FormFits form := by
  simp only [tileForms, List.forall_mem_cons]
  refine ⟨payloadForm_fits _ fun p hp => ?tld, payloadForm_fits _ fun p hp => ?tpk, plainForm_fits _ rfl,
    plainForm_fits _ rfl, plainForm_fits _ rfl, payloadForm_fits _ fun p hp => ?tdec,
    payloadForm_fits _ fun p hp => ?tenc, payloadForm_fits _ fun p hp => ?tcopy, by simp⟩
  case tld | tpk | tcopy => exact List.forall_mem_singleton.2 hp
  case tdec | tenc => exact List.forall_mem_cons.2 ⟨hp, List.forall_mem_singleton.2 rfl⟩

theorem mappingForms_fit : ∀ form ∈ mappingForms, FormFits form := by
  simp only [mappingForms, List.forall_mem_cons]
  refine ⟨fun os hos => ?mdec, plainForm_fits _ rfl, fun os _ => asmMmk_allFit os, by simp⟩
  case mdec =>
    dsimp only
    split
    · next p => exact allFit_bind fun off => allFit_singleton (hos (.pay p) (by simp))
    · exact allFit_none

theorem forms_fit : ∀ form ∈ forms, FormFits form := by
  simp only [forms, List.forall_mem_append]
  exact ⟨⟨⟨colourForms_fit, paletteForms_fit⟩, tileForms_fit⟩, mappingForms_fit⟩

theorem asmCommand_allFit (mnemonic : List Char) {os : List Operand} (hos : ∀ o ∈ os, fits o) :
    allFit (asmCommand mnemonic os) := by
  rw [asmCommand]
  cases hfind : forms.find? (fun form => form.1 == mnemonic) with
  | none => exact allFit_none
  | some form => exact forms_fit form (List.mem_of_find?_eq_some hfind) os hos

theorem assembleLine_allFit (line : List Char) : allFit (assembleLine line) := by
  unfold assembleLine
  split
  · intro is h
    cases h
    simp
  · next mnemonic ts _ =>
    cases hos : operands ts with
    | none => exact allFit_none
    | some os => exact asmCommand_allFit mnemonic (operands_fits hos)
  · exact allFit_none

/-- Settles O53: every form keeps payloads that fit, and a command whose payload fits is read back from its packet. -/
theorem assembledCommandsFitPackets : Obligations.AssembledCommandsFitPackets := by
  unfold Obligations.AssembledCommandsFitPackets
  intro line is hline i hi
  have hwf : i.WellFormed := assembleLine_allFit line is hline i hi
  exact ⟨hwf, decode_encode hwf⟩

end Sys2Proof.Machine
end

section
/-! PROOFS. The colour family (spec 40_color.md): the packets, the three functions of the codec, and the four commands,
each by what it does where it succeeds and the fault it ends in elsewhere. -/

namespace Sys2Proof

open Sys2Proof.Safety

variable {i : Instr} {opc : Byte} {arg : BitVec 32}

/-! ## Packets (30_encoding.md R62) -/

theorem encode_of_plainHeader (hh : headerFor i = plainHeader opc arg) (hp : i.payload = none) :
    encode i = packetOf opc none (argBytes arg) := by
  rw [encode, hh, hp, plainHeader_packet]
  exact List.append_nil _

theorem encode_of_payHeader (hh : headerFor i = payHeader opc i.payload arg) :
    encode i = packetOf opc i.payload (argBytes arg) := by
  rw [encode, hh, payHeader_packet]

theorem encode_cq (cd : RegNo) (r g b : Byte) : encode (.cq cd r g b) = packetOf 0x10 none [0#3 ++ cd, r, g, b] := by
  rw [← argBytes_argOfRgb]
  exact encode_of_plainHeader rfl rfl

theorem encode_cdec (cd : RegNo) (pay : Payload) : encode (.cdec cd pay) = packetOf 0x11 pay [0#3 ++ cd, 0, 0, 0] := by
  rw [← argBytes_argOfReg]
  exact encode_of_payHeader rfl

theorem encode_cdecx (cd : RegNo) (idx : BitVec 16) (pay : Payload) :
    encode (.cdecx cd idx pay) = packetOf 0x12 pay [0#3 ++ cd, 0, idx.extractLsb' 8 8, idx.extractLsb' 0 8] := by
  rw [← argBytes_argOfRegHalf]
  exact encode_of_payHeader rfl

theorem encode_cenc (cs : RegNo) : encode (.cenc cs) = packetOf 0x13 none [0#3 ++ cs, 0, 0, 0] := by
  rw [← argBytes_argOfReg]
  exact encode_of_plainHeader rfl rfl

end Sys2Proof

namespace Sys2Proof.Machine

open Sys2Proof.Safety

variable {s : State}

/-! ## The quantiser (R80) -/

theorem quantise_toNat : ∀ v : Byte, (quantise v).toNat = (v.toNat / 16) &&& 0b1110 := by decide

theorem quantise_eq_append : ∀ v : Byte, quantise v = v.extractLsb' 5 3 ++ 0#1 := by decide

/-- The band of a byte is its top three bits. -/
theorem quantise_toNat_band : ∀ v : Byte, (quantise v).toNat = 2 * (v.toNat / 32) := by decide

/-- Settles O12: the contract's formula, the bit form and the table of bands. -/
theorem quantiserFloorsThenMasks : Obligations.QuantiserFloorsThenMasks := fun v =>
  ⟨quantise_toNat v, quantise_eq_append v, quantise_toNat_band v⟩

/-- The quantiser drops bits 4:0, since a band's number is what the shift leaves. -/
theorem quantise_congr {v w : Byte} (h : v >>> 5 = w >>> 5) : quantise v = quantise w := by
  have hband : v.toNat / 32 = w.toNat / 32 := by
    simpa [Nat.shiftRight_eq_div_pow] using congrArg BitVec.toNat h
  apply BitVec.eq_of_toNat_eq
  rw [quantise_toNat_band, quantise_toNat_band, hband]

/-! ## The colour word (R81 to R83) -/

theorem colenc_eq (c : Colour) : colenc c = (c.b, greenRed c) := by
  rw [colenc, shift_or_eq_append, greenRed]

theorem decodesTo_coldec (byte0 byte1 : Byte) : decodesTo byte0 byte1 (coldec byte0 byte1) := by
  refine ⟨?_, ?_, rfl⟩ <;>
  · revert byte1
    simp only [coldec]
    decide

/-- Decoding the second byte of a word masks R and keeps G. -/
theorem coldec_append (b : Byte) : ∀ g r : Nibble, coldec b (g ++ r) = ⟨r &&& 0b1110, g, b⟩ := by
  simp only [coldec, Colour.mk.injEq, and_true]
  decide

/-- The mask on R changes nothing where R is even (R83 a). -/
theorem coldec_greenRed {c : Colour} (hc : colourLegal c) : coldec c.b (greenRed c) = c := by
  have hmask : ∀ r : Nibble, r.toNat % 2 = 0 → r &&& 0b1110 = r := by decide
  rw [greenRed, coldec_append, hmask c.r hc]

/-- The mask on R is the one thing a decoded word loses (90_conflicts.md C3). -/
theorem greenRed_coldec (byte0 byte1 : Byte) : greenRed (coldec byte0 byte1) = byte1 &&& 0xFE := by
  revert byte1
  simp only [greenRed, coldec]
  decide

/-- Only bit 0 of the second byte is lost (R83 b). -/
theorem colenc_coldec (byte0 byte1 : Byte) : colenc (coldec byte0 byte1) = (byte0, byte1 &&& 0xFE) := by
  rw [colenc_eq, greenRed_coldec]
  rfl

theorem and_0xFE_eq_self_iff : ∀ v : Byte, v &&& 0xFE = v ↔ v.getLsbD 0 = false := by decide

/-- Bit 0 of a colour word's second byte is bit 0 of R. -/
theorem greenRed_getLsbD_zero {c : Colour} (hc : colourLegal c) : (greenRed c).getLsbD 0 = false := by
  rw [greenRed, BitVec.getLsbD_append, if_pos (by decide)]
  simpa [BitVec.getLsbD] using hc

/-- Settles O13: each direction of the codec, and the quantiser's range and bands. -/
theorem colourCodecRoundTrips : Obligations.ColourCodecRoundTrips := by
  unfold Obligations.ColourCodecRoundTrips
  refine ⟨fun c hc => ?_, fun byte0 byte1 => ⟨colenc_coldec byte0 byte1, ?_⟩, fun c hc => ?_,
    channelInDomain_quantise, fun v w => quantise_congr⟩
  · rw [colenc_eq]
    exact coldec_greenRed hc
  · rw [colenc_coldec, ← and_0xFE_eq_self_iff, Prod.mk.injEq]
    exact and_iff_right rfl
  · obtain ⟨⟨heven, -⟩, -⟩ := hc
    rw [colenc_eq]
    exact greenRed_getLsbD_zero heven

/-! ## How the commands end -/

/-- What writing one colour register and answering OK leaves alone (10_state.md R23). -/
theorem onlyColour_issue_writeColour (cd : RegNo) (v : Colour) (r : Response) (s : State) :
    onlyColour cd s (issue r (writeColour cd v s)) :=
  ⟨fun _ hj => readColour_writeColour_ne s v hj, rfl, rfl, rfl, rfl, rfl, rfl⟩

theorem respondsOk_writeColour (cd : RegNo) (v : Colour) (s : State) :
    respondsOk [] s (issue (okResponse []) (writeColour cd v s)) :=
  respondsOk_issue (by decide) (writeColour cd v s)

theorem onlyResponds_issue (r : Response) (s : State) : onlyResponds s (issue r s) :=
  ⟨⟨rfl, rfl, rfl, rfl⟩, rfl, rfl, rfl⟩

theorem exec_cdec_none (cd : RegNo) (s : State) : exec (.cdec cd none) s = raiseFault .nullInput s := rfl

theorem exec_cdec_length (cd : RegNo) {bytes : List Byte} (h : bytes.length ≠ 2) (s : State) :
    exec (.cdec cd (some bytes)) s = raiseFault .length s := by
  simp only [exec, execCdec, withPayload_some]
  split
  · exact absurd rfl h
  · rfl

theorem exec_cdecx_none (cd : RegNo) (idx : BitVec 16) (s : State) :
    exec (.cdecx cd idx none) s = raiseFault .nullInput s := rfl

theorem exec_cdecx_range (cd : RegNo) (idx : BitVec 16) {bytes : List Byte} (h : bytes.length ≤ 2 * idx.toNat + 1)
    (s : State) : exec (.cdecx cd idx (some bytes)) s = raiseFault .range s := by
  simp only [exec, execCdecx, withPayload_some, pairAt_eq_none.2 h]

theorem exec_cenc_held {cs : RegNo} {c : Colour} (h : readColour s cs = some c) :
    exec (.cenc cs) s = .next (issue (okResponse [c.b, greenRed c]) s) := by
  simp only [exec, execCenc, h, colourBytes, colenc_eq, respond_eq]

theorem exec_cenc_empty {cs : RegNo} (h : readColour s cs = none) : exec (.cenc cs) s = raiseFault .nullObject s := by
  simp only [exec, execCenc, h]

/-! ## The four commands (R84 to R87) -/

/-- Settles O15: each channel is the quantised operand. -/
theorem cqWritesQuantisedColour : Obligations.CqWritesQuantisedColour := by
  unfold Obligations.CqWritesQuantisedColour
  intro s cd r g b
  refine ⟨encode_cq cd r g b, _, _, exec_cq cd r g b s, by simp, quantise_toNat r, quantise_toNat g, ?_,
    inDomain_quantised r g b, onlyColour_issue_writeColour .., respondsOk_writeColour ..⟩
  rw [BitVec.toNat_setWidth_of_le (by decide)]
  exact quantise_toNat b

/-- Settles O16, by the payload: two bytes, absent, or another length. -/
theorem cdecDecodesTwoBytes : Obligations.CdecDecodesTwoBytes := by
  unfold Obligations.CdecDecodesTwoBytes
  intro s cd
  refine ⟨encode_cdec cd, fun byte0 byte1 => ?pair, ?absent, fun bytes h => ?length⟩
  case pair =>
    exact ⟨_, _, exec_cdec_pair cd byte0 byte1 s, by simp, decodesTo_coldec .., onlyColour_issue_writeColour ..,
      respondsOk_writeColour ..⟩
  case absent => exact exec_cdec_none cd s ▸ faultsAs_raiseFault .nullInput s
  case length => exact exec_cdec_length cd h s ▸ faultsAs_raiseFault .length s

/-- Settles O17, by the payload: the slot inside it, absent, or the slot beyond it. -/
theorem cdecxDecodesSlot : Obligations.CdecxDecodesSlot := by
  unfold Obligations.CdecxDecodesSlot
  intro s cd idx
  refine ⟨encode_cdecx cd idx, fun bytes h => ?slot, ?absent, fun bytes h => ?beyond⟩
  case slot =>
    exact ⟨_, _, exec_cdecx_slot cd idx h s, by simp, decodesTo_coldec .., onlyColour_issue_writeColour ..,
      respondsOk_writeColour ..⟩
  case absent => exact exec_cdecx_none cd idx s ▸ faultsAs_raiseFault .nullInput s
  case beyond => exact exec_cdecx_range cd idx h s ▸ faultsAs_raiseFault .range s

/-- Settles O18, by what the register holds. -/
theorem cencAnswersColourWord : Obligations.CencAnswersColourWord := by
  unfold Obligations.CencAnswersColourWord
  intro s cs
  refine ⟨encode_cenc cs, fun c hc => ?held, fun hnone => ?empty⟩
  case held => exact ⟨_, exec_cenc_held hc, respondsOk_issue (by simp) s, onlyResponds_issue ..⟩
  case empty => exact exec_cenc_empty hnone ▸ faultsAs_raiseFault .nullObject s

/-! ## The family together (R88) -/

theorem cenc_answers_written (cd : RegNo) (v : Colour) (r : Response) (s : State) :
    ∃ t, exec (.cenc cd) (issue r (writeColour cd v s)) = .next t ∧
      respondsOk [v.b, greenRed v] (issue r (writeColour cd v s)) t :=
  ⟨_, exec_cenc_held (by simp), respondsOk_issue (by simp) _⟩

/-- Settles O19: CENC answers the word of the colour just written, and decoding a held colour's word gives it back. -/
theorem colourFamilyRoundTrips : Obligations.ColourFamilyRoundTrips := by
  unfold Obligations.ColourFamilyRoundTrips
  refine ⟨fun s cd r g b => ?cq, fun s cd w0 w1 => ?cdec, fun s cs cd c hc hlegal => ?cenc⟩
  case cq =>
    obtain ⟨u, hu, hans⟩ := cenc_answers_written cd ⟨quantise r, quantise g, (quantise b).setWidth 8⟩ (okResponse []) s
    exact ⟨_, u, exec_cq cd r g b s, hu, hans⟩
  case cdec =>
    obtain ⟨u, hu, hans⟩ := cenc_answers_written cd (coldec w0 w1) (okResponse []) s
    rw [greenRed_coldec] at hans
    exact ⟨_, u, exec_cdec_pair cd w0 w1 s, hu, hans⟩
  case cenc =>
    refine ⟨_, _, _, _, exec_cenc_held hc, respondsOk_issue (by simp) s, exec_cdec_pair cd c.b (greenRed c) _, ?_⟩
    rw [coldec_greenRed hlegal, readColour_issue, readColour_writeColour_self]

end Sys2Proof.Machine
end

section
/-! PROOFS. The palette family (spec 41_palette.md): the packets, the codec slot by slot, and the five commands, each by
what it does where it succeeds and the fault it ends in elsewhere. -/

namespace Sys2Proof

open Sys2Proof.Safety

/-! ## Packets (30_encoding.md R62) -/

theorem encode_pdecF (pay : Payload) : encode (.pdecF pay) = packetOf 0x20 pay [0, 0, 0, 0] :=
  encode_of_payHeader (i := .pdecF pay) rfl

theorem encode_pdecV (pay : Payload) : encode (.pdecV pay) = packetOf 0x21 pay [0, 0, 0, 0] :=
  encode_of_payHeader (i := .pdecV pay) rfl

theorem encode_pldF (n : BitVec 6) : encode (.pldF n) = packetOf 0x22 none [0, 0, 0, 0#2 ++ n] := by
  rw [← argBytes_argOfCount]
  exact encode_of_plainHeader rfl rfl

theorem encode_pldV (n : BitVec 6) : encode (.pldV n) = packetOf 0x23 none [0, 0, 0, 0#2 ++ n] := by
  rw [← argBytes_argOfCount]
  exact encode_of_plainHeader rfl rfl

theorem encode_penc : encode .penc = packetOf 0x24 none [0, 0, 0, 0] :=
  encode_of_plainHeader (i := .penc) rfl rfl

end Sys2Proof

namespace Sys2Proof.Machine

open Sys2Proof.Safety

variable {s : State} {p : Palette} {bytes : List Byte}

/-! ## The codec slot by slot (R100, R101) -/

theorem slotColours_getElem? : ∀ {bytes : List Byte} {k : Nat} (hk : 2 * k + 1 < bytes.length),
    (slotColours bytes)[k]? = some (coldec bytes[2 * k] bytes[2 * k + 1])
  | _ :: _ :: _, 0, _ => rfl
  | _ :: _ :: rest, k + 1, hk => by
    have hrest : 2 * k + 1 < rest.length := by
      simp only [List.length_cons] at hk
      omega
    simpa [slotColours, Nat.mul_add] using slotColours_getElem? hrest

/-- A decoded slot holds the colour of its word. -/
theorem paldec_slot {k : Nat} (hk : 2 * k + 1 < bytes.length) :
    ∃ c, (paldec bytes).ent[k]? = some c ∧ decodesTo bytes[2 * k] bytes[2 * k + 1] c :=
  ⟨_, slotColours_getElem? hk, decodesTo_coldec ..⟩

theorem paldec_cnt (bytes : List Byte) : (paldec bytes).cnt = bytes.length / 2 := slotColours_length bytes

theorem palenc_getElem? : ∀ (p : Palette) (k : Nat),
    (palenc p)[2 * k]? = p.ent[k]?.map Colour.b ∧ (palenc p)[2 * k + 1]? = p.ent[k]?.map greenRed
  | ⟨[]⟩, _ => by simp [palenc]
  | ⟨_ :: _⟩, 0 => by simp [palenc, colourBytes, colenc_eq]
  | ⟨_ :: cs⟩, k + 1 => by simpa [palenc, colourBytes, Nat.mul_add] using palenc_getElem? ⟨cs⟩ k

/-- Slot `k`'s colour word stands at `2 * k` and `2 * k + 1`. -/
theorem palenc_slot {k : Nat} {c : Colour} (hc : p.ent[k]? = some c) :
    (palenc p)[2 * k]? = some c.b ∧ (palenc p)[2 * k + 1]? = some (greenRed c) := by
  simpa [hc] using palenc_getElem? p k

/-! ## Round trips of the codec (R102) -/

theorem slotColours_flatMap_colourBytes {cs : List Colour} (hcs : ∀ c ∈ cs, colourLegal c) :
    slotColours (cs.flatMap colourBytes) = cs := by
  induction cs with
  | nil => rfl
  | cons c cs ih =>
    obtain ⟨hc, hrest⟩ := List.forall_mem_cons.1 hcs
    simp [colourBytes, colenc_eq, slotColours, coldec_greenRed hc, ih hrest]

theorem paldec_palenc (hp : ∀ c ∈ p.ent, colourLegal c) : paldec (palenc p) = p := by
  rw [paldec, palenc, slotColours_flatMap_colourBytes hp]

/-- A buffer comes back with bit 0 of each odd-offset byte cleared (R102 b). -/
theorem palenc_paldec_slot {k : Nat} (hk : 2 * k + 1 < bytes.length) :
    (palenc (paldec bytes))[2 * k]? = some bytes[2 * k] ∧
      (palenc (paldec bytes))[2 * k + 1]? = some (bytes[2 * k + 1] &&& 0xFE) := by
  have hslot := palenc_slot (p := paldec bytes) (slotColours_getElem? hk)
  rwa [greenRed_coldec] at hslot

theorem palenc_paldec_length (heven : bytes.length % 2 = 0) : (palenc (paldec bytes)).length = bytes.length := by
  rw [palenc_length, paldec_cnt]
  omega

/-- A buffer of even length is its slots and nothing else (20_memory.md R44). -/
theorem eq_of_slots_eq {w : List Byte} (hlen : w.length = bytes.length) (heven : bytes.length % 2 = 0)
    (hslots : ∀ k (hk : 2 * k + 1 < bytes.length),
      w[2 * k]? = some bytes[2 * k] ∧ w[2 * k + 1]? = some bytes[2 * k + 1]) : w = bytes := by
  refine List.ext_getElem hlen fun j hw hj => Option.some.inj ?_
  rw [← List.getElem?_eq_getElem hw]
  obtain ⟨k, rfl | rfl⟩ := Nat.even_or_odd' j
  · exact (hslots k (by omega)).1
  · exact (hslots k hj).2

theorem palenc_paldec_eq_self_iff (heven : bytes.length % 2 = 0) :
    palenc (paldec bytes) = bytes ↔ ∀ k (hk : 2 * k + 1 < bytes.length), bytes[2 * k + 1].getLsbD 0 = false := by
  constructor
  · intro heq k hk
    obtain ⟨-, hodd⟩ := palenc_paldec_slot hk
    rw [heq, List.getElem?_eq_getElem hk, Option.some.injEq] at hodd
    exact (and_0xFE_eq_self_iff _).1 hodd.symm
  · intro hclear
    refine eq_of_slots_eq (palenc_paldec_length heven) heven fun k hk => ?_
    have hslot := palenc_paldec_slot hk
    rwa [(and_0xFE_eq_self_iff _).2 (hclear k hk)] at hslot

/-- Settles O20: each direction of the codec, from what it does to one slot. -/
theorem paletteCodecRoundTrips : Obligations.PaletteCodecRoundTrips := by
  unfold Obligations.PaletteCodecRoundTrips
  refine ⟨fun p ⟨_, hlegal⟩ => paldec_palenc hlegal, fun bytes heven => ?buffer, fun p hp => ?inDomain⟩
  case buffer =>
    exact ⟨palenc_paldec_length heven, fun k hk => palenc_paldec_slot hk, palenc_paldec_eq_self_iff heven⟩
  case inDomain => rw [paldec_palenc fun c hc => (hp c hc).1.1]

/-! ## How the commands end -/

/-- What writing PAL and answering OK leaves alone (10_state.md R25). -/
theorem onlyPal_issue_writePal (p : Palette) (r : Response) (s : State) : onlyPal s (issue r (writePal p s)) :=
  ⟨rfl, rfl, rfl, rfl, rfl, rfl⟩

theorem respondsOk_writePal (p : Palette) (s : State) : respondsOk [] s (issue (okResponse []) (writePal p s)) :=
  respondsOk_issue (by decide) (writePal p s)

theorem exec_pdecF_full (h : bytes.length = 32) (s : State) :
    exec (.pdecF (some bytes)) s = .next (issue (okResponse []) (writePal (paldec bytes) s)) := if_pos h

theorem exec_pdecF_none (s : State) : exec (.pdecF none) s = raiseFault .nullInput s := rfl

theorem exec_pdecF_length (h : bytes.length ≠ 32) (s : State) :
    exec (.pdecF (some bytes)) s = raiseFault .length s := if_neg h

theorem exec_pdecV_even (heven : bytes.length % 2 = 0) (hmax : bytes.length ≤ 32) (s : State) :
    exec (.pdecV (some bytes)) s = .next (issue (okResponse []) (writePal (paldec bytes) s)) :=
  if_neg (by simp only [Config.palBytesMax]; omega)

theorem exec_pdecV_none (s : State) : exec (.pdecV none) s = raiseFault .nullInput s := rfl

theorem exec_pdecV_length (h : bytes.length % 2 = 1 ∨ bytes.length > 32) (s : State) :
    exec (.pdecV (some bytes)) s = raiseFault .length s := if_pos h

theorem exec_pldF_capacity {n : BitVec 6} (h : n.toNat > 16) (s : State) :
    exec (.pldF n) s = raiseFault .capacity s := if_pos h

theorem exec_pldF_length {n : BitVec 6} (h : n.toNat < 16) (s : State) : exec (.pldF n) s = raiseFault .length s :=
  (if_neg (Nat.not_lt.2 h.le)).trans (if_pos h.ne)

/-- With its count right, PLD.F is the load both modes share. -/
theorem exec_pldF_of_count {n : BitVec 6} (h : n.toNat = 16) (s : State) : exec (.pldF n) s = loadCollection 16 s :=
  (if_neg (Nat.not_lt.2 h.le)).trans (if_neg (not_not.2 h))

theorem exec_pldV_capacity {n : BitVec 6} (h : n.toNat > 16) (s : State) :
    exec (.pldV n) s = raiseFault .capacity s := if_pos h

theorem exec_pldV_of_count {n : BitVec 6} (h : n.toNat ≤ 16) (s : State) :
    exec (.pldV n) s = loadCollection n.toNat s := if_neg (Nat.not_lt.2 h)

/-- Where its registers all hold colours, a load copies them in order (R105, R106). -/
theorem loadCollection_held {n : Nat} (hn : n ≤ 32) (h : ∀ k, k < n → readColour s (BitVec.ofNat 5 k) ≠ none) :
    ∃ p, loadCollection n s = .next (issue (okResponse []) (writePal p s)) ∧ p.cnt = n ∧
      ∀ k, k < n → p.ent[k]? = readColour s (BitVec.ofNat 5 k) := by
  have hheld : collection n s ≠ none := fun hnone => by
    obtain ⟨k, hk, hempty⟩ := (collection_eq_none hn).1 hnone
    exact h k hk hempty
  obtain ⟨cs, hcs⟩ := Option.ne_none_iff_exists'.1 hheld
  obtain ⟨hlen, hslots⟩ := (collection_eq_some hn).1 hcs
  exact ⟨⟨cs⟩, by simp only [loadCollection, hcs, respond_eq], hlen, fun k hk => (hslots k hk).1⟩

theorem loadCollection_missing {n : Nat} (hn : n ≤ 32)
    (h : ∃ k, k < n ∧ readColour s (BitVec.ofNat 5 k) = none) : loadCollection n s = raiseFault .nullObject s := by
  simp only [loadCollection, (collection_eq_none hn).2 h]

theorem exec_penc_held (h : s.pal = some p) : exec .penc s = .next (issue (okResponse (palenc p)) s) := by
  simp only [exec, execPenc, h, respond_eq]

theorem exec_penc_empty (h : s.pal = none) : exec .penc s = raiseFault .nullObject s := by
  simp only [exec, execPenc, h]

/-- The bound on `cnt` is what keeps RLEN from overflowing (10_state.md R25, 30_encoding.md R67). -/
theorem respondsOk_palenc (hcnt : p.cnt ≤ 16) (s : State) :
    respondsOk (palenc p) s (issue (okResponse (palenc p)) s) :=
  respondsOk_issue (by rw [palenc_length]; omega) s

/-! ## The five commands (R103 to R107) -/

/-- Settles O21, by the payload: 32 bytes, absent, or another length. -/
theorem pdecFDecodesSixteenColours : Obligations.PdecFDecodesSixteenColours := by
  unfold Obligations.PdecFDecodesSixteenColours
  intro s
  refine ⟨encode_pdecF, fun bytes h => ?full, ?absent, fun bytes h => ?length⟩
  case full =>
    exact ⟨_, _, exec_pdecF_full h s, rfl, by rw [paldec_cnt, h], fun k hk => paldec_slot hk,
      onlyPal_issue_writePal .., respondsOk_writePal ..⟩
  case absent => exact exec_pdecF_none s ▸ faultsAs_raiseFault .nullInput s
  case length => exact exec_pdecF_length h s ▸ faultsAs_raiseFault .length s

/-- Settles O22, by the payload: an even length up to 32, absent, or another length. -/
theorem pdecVDecodesEvenBuffer : Obligations.PdecVDecodesEvenBuffer := by
  unfold Obligations.PdecVDecodesEvenBuffer
  intro s
  refine ⟨encode_pdecV, fun bytes heven hmax => ?even, ?absent, fun bytes h => ?length⟩
  case even =>
    exact ⟨_, _, exec_pdecV_even heven hmax s, rfl, paldec_cnt bytes, fun k hk => paldec_slot hk,
      onlyPal_issue_writePal .., respondsOk_writePal ..⟩
  case absent => exact exec_pdecV_none s ▸ faultsAs_raiseFault .nullInput s
  case length => exact exec_pdecV_length h s ▸ faultsAs_raiseFault .length s

/-- Settles O23: the count is checked first, and only at 16 do the registers decide. -/
theorem pldFCopiesSixteenRegisters : Obligations.PldFCopiesSixteenRegisters := by
  unfold Obligations.PldFCopiesSixteenRegisters
  intro s
  have hload : exec (.pldF 16) s = loadCollection 16 s := exec_pldF_of_count (by decide) s
  refine ⟨encode_pldF, fun hheld => ?held, fun n h => ?capacity, fun n h => ?length, fun hmissing => ?missing⟩
  case held =>
    obtain ⟨p, hp, hcnt, hslots⟩ := loadCollection_held (by decide) hheld
    exact ⟨_, p, hload.trans hp, rfl, hcnt, hslots, onlyPal_issue_writePal .., respondsOk_writePal ..⟩
  case capacity => exact exec_pldF_capacity h s ▸ faultsAs_raiseFault .capacity s
  case length => exact exec_pldF_length h s ▸ faultsAs_raiseFault .length s
  case missing =>
    exact hload.trans (loadCollection_missing (by decide) hmissing) ▸ faultsAs_raiseFault .nullObject s

/-- Settles O24: the count is checked first, and up to 16 the registers decide. -/
theorem pldVCopiesRegisters : Obligations.PldVCopiesRegisters := by
  unfold Obligations.PldVCopiesRegisters
  intro s n
  refine ⟨encode_pldV n, fun hn hheld => ?held, fun h => ?capacity, fun hn hmissing => ?missing⟩
  case held =>
    obtain ⟨p, hp, hcnt, hslots⟩ := loadCollection_held (by omega) hheld
    exact ⟨_, p, (exec_pldV_of_count hn s).trans hp, rfl, hcnt, hslots, onlyPal_issue_writePal ..,
      respondsOk_writePal ..⟩
  case capacity => exact exec_pldV_capacity h s ▸ faultsAs_raiseFault .capacity s
  case missing =>
    have hfault := (exec_pldV_of_count hn s).trans (loadCollection_missing (by omega) hmissing)
    exact hfault ▸ faultsAs_raiseFault .nullObject s

/-- Settles O25, by what PAL holds. -/
theorem pencAnswersPaletteBytes : Obligations.PencAnswersPaletteBytes := by
  unfold Obligations.PencAnswersPaletteBytes
  intro s
  refine ⟨encode_penc, fun p hp hcnt => ?held, fun hnone => ?empty⟩
  case held =>
    exact ⟨_, _, exec_penc_held hp, respondsOk_palenc hcnt s, palenc_length p, fun k c hc => palenc_slot hc,
      onlyResponds_issue ..⟩
  case empty => exact exec_penc_empty hnone ▸ faultsAs_raiseFault .nullObject s

/-! ## The family together (R108) -/

theorem penc_answers_written (hcnt : p.cnt ≤ 16) (r : Response) (s : State) :
    ∃ t, exec .penc (issue r (writePal p s)) = .next t ∧ respondsOk (palenc p) (issue r (writePal p s)) t :=
  ⟨_, exec_penc_held rfl, respondsOk_palenc hcnt _⟩

/-- The conventional form `0000BBB0` of a word's first byte (20_memory.md R43). -/
theorem and_0xF1_of_channelInDomain : ∀ b : Byte, channelInDomain b.toNat → b &&& 0xF1 = 0x00 := by decide

/-- The conventional form `GGG0RRR0` of a word's second byte (20_memory.md R43). -/
theorem greenRed_and_0x11 {c : Colour} (hc : inDomain c) : greenRed c &&& 0x11 = 0x00 := by
  have happend : ∀ g r : Nibble, channelInDomain r.toNat → channelInDomain g.toNat → (g ++ r) &&& 0x11#8 = 0x00 := by
    decide
  obtain ⟨hr, hg, -⟩ := hc
  exact happend c.g c.r hr hg

/-- Every byte of an in-domain palette has the conventional form of its place. -/
theorem palenc_conventional (hp : ∀ c ∈ p.ent, inDomain c) {j : Nat} {byte : Byte} (hj : (palenc p)[j]? = some byte) :
    byte &&& (if j % 2 = 0 then 0xF1 else 0x11) = 0x00 := by
  obtain ⟨k, rfl | rfl⟩ := Nat.even_or_odd' j
  · obtain ⟨hbyte, -⟩ := palenc_getElem? p k
    obtain ⟨c, hc, rfl⟩ := Option.map_eq_some_iff.1 (hbyte.symm.trans hj)
    rw [if_pos (by omega)]
    obtain ⟨-, -, hb⟩ := hp c (List.mem_of_getElem? hc)
    exact and_0xF1_of_channelInDomain c.b hb
  · obtain ⟨-, hbyte⟩ := palenc_getElem? p k
    obtain ⟨c, hc, rfl⟩ := Option.map_eq_some_iff.1 (hbyte.symm.trans hj)
    rw [if_neg (by omega)]
    exact greenRed_and_0x11 (hp c (List.mem_of_getElem? hc))

/-- A load from registers that hold in-domain colours leaves an in-domain palette. -/
theorem loadCollection_inDomain {n : Nat} (hn : n ≤ 32)
    (h : ∀ k, k < n → ∃ c, readColour s (BitVec.ofNat 5 k) = some c ∧ inDomain c) :
    ∃ p, loadCollection n s = .next (issue (okResponse []) (writePal p s)) ∧ p.cnt = n ∧ ∀ c ∈ p.ent, inDomain c := by
  have hheld : ∀ k, k < n → readColour s (BitVec.ofNat 5 k) ≠ none := fun k hk => by
    obtain ⟨c, hc, -⟩ := h k hk
    simp [hc]
  obtain ⟨p, hp, hcnt, hslots⟩ := loadCollection_held hn hheld
  refine ⟨p, hp, hcnt, fun c hc => ?_⟩
  obtain ⟨k, hk⟩ := List.mem_iff_getElem?.1 hc
  have hlt : k < n := hcnt ▸ (List.getElem?_eq_some_iff.1 hk).1
  obtain ⟨d, hd, hdom⟩ := h k hlt
  obtain rfl : d = c := Option.some.inj (hd.symm.trans ((hslots k hlt).symm.trans hk))
  exact hdom

/-- Settles O26: PENC answers the bytes of the palette just written, and the two codec functions undo each other. -/
theorem paletteFamilyRoundTrips : Obligations.PaletteFamilyRoundTrips := by
  unfold Obligations.PaletteFamilyRoundTrips
  refine ⟨fun s w i hi => ?decode, fun s p hp ⟨hcnt, hlegal⟩ => ?encode, fun s n i hi hregs => ?load⟩
  case decode =>
    have hexec : exec i s = .next (issue (okResponse []) (writePal (paldec w) s)) := by
      obtain ⟨rfl, hlen⟩ | ⟨rfl, heven, hmax⟩ := hi
      · exact exec_pdecF_full hlen s
      · exact exec_pdecV_even heven hmax s
    have hw : w.length % 2 = 0 ∧ w.length ≤ 32 := by omega
    obtain ⟨u, hu, hans⟩ := penc_answers_written (p := paldec w) (by rw [paldec_cnt]; omega) (okResponse []) s
    exact ⟨_, u, _, hexec, hu, hans, palenc_paldec_length hw.1, fun k hk => palenc_paldec_slot hk⟩
  case encode =>
    have hdec := exec_pdecV_even (bytes := palenc p) (by rw [palenc_length]; omega)
      (by rw [palenc_length]; omega) (issue (okResponse (palenc p)) s)
    exact ⟨_, _, _, exec_penc_held hp, respondsOk_palenc hcnt s, hdec, congrArg some (paldec_palenc hlegal)⟩
  case load =>
    have hexec : exec i s = loadCollection n.toNat s := by
      obtain ⟨rfl, hn⟩ | ⟨rfl, hn⟩ := hi
      · rw [exec_pldF_of_count hn, hn]
      · exact exec_pldV_of_count hn s
    have hn : n.toNat ≤ 16 := by omega
    obtain ⟨p, hp, hcnt, hdom⟩ := loadCollection_inDomain (by omega) hregs
    obtain ⟨u, hu, hans⟩ := penc_answers_written (p := p) (by omega) (okResponse []) s
    exact ⟨_, u, p, _, hexec.trans hp, rfl, hdom, hu, hans, fun k byte hk => palenc_conventional hdom hk⟩

end Sys2Proof.Machine
end

section
/-! PROOFS. The tile family (spec 42_tile.md): the packets, the codec's round trips, the five commands, each by the one
rule for how it ends, and the pairs of commands that the pseudo-instructions stand for. -/

namespace Sys2Proof

open Sys2Proof.Safety

/-! ## Packets (30_encoding.md R62) -/

theorem encode_tld (pay : Payload) : encode (.tld pay) = packetOf 0x30 pay [0, 0, 0, 0] :=
  encode_of_payHeader (i := .tld pay) rfl

theorem encode_tpk (pay : Payload) : encode (.tpk pay) = packetOf 0x31 pay [0, 0, 0, 0] :=
  encode_of_payHeader (i := .tpk pay) rfl

theorem encode_tunpk : encode .tunpk = packetOf 0x32 none [0, 0, 0, 0] :=
  encode_of_plainHeader (i := .tunpk) rfl rfl

theorem encode_tst : encode .tst = packetOf 0x33 none [0, 0, 0, 0] :=
  encode_of_plainHeader (i := .tst) rfl rfl

theorem encode_tclr : encode .tclr = packetOf 0x34 none [0, 0, 0, 0] :=
  encode_of_plainHeader (i := .tclr) rfl rfl

end Sys2Proof

namespace Sys2Proof.Machine

open Sys2Proof.Safety

variable {i j : Instr} {s t u : State} {res : List Byte} {st ca : Byte}

/-! ## Round trips of the codec (R123) -/

/-- A byte's two nibbles are pixels that either setting of `PIX_OVF` keeps. -/
theorem pixnorm_nibbles : ∀ (ovf : PixOvf) (b : Byte), pixnorm ovf (b >>> 4) ++ pixnorm ovf (b &&& 0x0F) = b
  | .clamp => by decide
  | .mask => by decide

theorem tilePack_tileUnpack (ovf : PixOvf) (v : Vector Byte 32) : tilePack ovf (tileUnpack v) = v := by
  ext1 k hk
  rw [tilePack_getElem _ _ hk, tileUnpack_even v hk, tileUnpack_odd v hk, pixnorm_nibbles]

theorem tileUnpack_tilePack_toNat (ovf : PixOvf) (px : Vector Byte 64) {k : Nat} (hk : k < 64) :
    (tileUnpack (tilePack ovf px))[k].toNat = pixelValue ovf px[k].toNat := by
  rw [tileUnpack_tilePack_getElem ovf px hk, BitVec.toNat_setWidth_of_le (by decide), pixnorm_toNat]

/-- Both settings of `PIX_OVF` keep the pixels up to 15 and change every other (R122). -/
theorem pixelValue_eq_self_iff (ovf : PixOvf) (v : Nat) : pixelValue ovf v = v ↔ v ≤ 15 := by
  cases ovf with
  | clamp => exact min_eq_left_iff
  | mask =>
    have hmod : pixelValue .mask v = v % 16 := Nat.and_two_pow_sub_one_eq_mod v 4
    rw [hmod]
    omega

theorem tileUnpack_tilePack_eq_self_iff (ovf : PixOvf) (px : Vector Byte 64) :
    tileUnpack (tilePack ovf px) = px ↔ ∀ k, (hk : k < 64) → px[k].toNat ≤ 15 := by
  simp only [Vector.ext_iff, ← BitVec.toNat_inj, tileUnpack_tilePack_toNat, pixelValue_eq_self_iff]

/-- Settles O27: each direction of the codec, pixel by pixel and byte by byte. -/
theorem tileCodecRoundTrips : Obligations.TileCodecRoundTrips := by
  unfold Obligations.TileCodecRoundTrips
  refine fun ovf => ⟨tilePack_tileUnpack ovf, fun px => ⟨tileUnpack_tilePack_eq_self_iff ovf px,
    fun k hk => tileUnpack_tilePack_toNat ovf px hk⟩, fun v k hk hbyte => ?_⟩
  rw [tileUnpack_even v hk, tileUnpack_odd v hk, hbyte]
  decide

/-- A packed byte as a number: the even pixel counts sixteen times (R121, R122). -/
theorem tilePack_toNat (ovf : PixOvf) (px : Vector Byte 64) {k : Nat} (hk : k < 32) :
    (tilePack ovf px)[k].toNat = 16 * pixelValue ovf px[2 * k].toNat + pixelValue ovf px[2 * k + 1].toNat := by
  obtain ⟨-, -, hnat⟩ := nibbles_of_append (pixnorm ovf px[2 * k]) (pixnorm ovf px[2 * k + 1])
  rw [tilePack_getElem _ _ hk, hnat, pixnorm_toNat, pixnorm_toNat]

/-! ## The codec as payloads and answers carry it -/

theorem exists_toList_eq {n : Nat} {bytes : List Byte} (h : bytes.length = n) : ∃ v : Vector Byte n, v.toList = bytes :=
  ⟨⟨bytes.toArray, by simpa using h⟩, rfl⟩

/-- The two pixels of a byte in the answer, high nibble first (R120). -/
theorem tileUnpack_toList_pair (v : Vector Byte 32) {k : Nat} (hk : k < 32) :
    (tileUnpack v).toList[2 * k]? = some (v[k] >>> 4) ∧ (tileUnpack v).toList[2 * k + 1]? = some (v[k] &&& 0x0F) := by
  rw [← tileUnpack_even v hk, ← tileUnpack_odd v hk]
  constructor
  all_goals
    rw [Vector.getElem?_toList]
    exact Vector.getElem?_eq_getElem _

theorem map_toNat_tileUnpack_tilePack (ovf : PixOvf) (px : Vector Byte 64) :
    (tileUnpack (tilePack ovf px)).toList.map BitVec.toNat = px.toList.map fun v => pixelValue ovf v.toNat :=
  List.ext_getElem (by simp) fun k hk _ => by simpa using tileUnpack_tilePack_toNat ovf px (by simpa using hk)

/-! ## How the commands end -/

/-- The command completes, leaves these 32 bytes in TILE and nothing else changed, and answers OK without result
bytes. -/
def WritesTile (i : Instr) (s : State) (v : Vector Byte 32) : Prop :=
  ∃ t, exec i s = .next t ∧ t.tile = v ∧ onlyTile s t ∧ respondsOk [] s t

/-- The command completes, answers OK with these bytes, and changes no register. -/
def Answers (i : Instr) (s : State) (res : List Byte) : Prop :=
  ∃ t, exec i s = .next t ∧ respondsOk res s t ∧ onlyResponds s t

theorem writesTile_of_exec {v : Vector Byte 32} (h : exec i s = respond [] (writeTile v s)) : WritesTile i s v :=
  ⟨_, h, rfl, ⟨rfl, rfl, rfl, rfl, rfl, rfl⟩, respondsOk_issue (by decide) (writeTile v s)⟩

theorem answers_of_exec (h : exec i s = respond res s) (hlen : res.length < 65536) : Answers i s res :=
  ⟨_, h, respondsOk_issue hlen s, onlyResponds_issue ..⟩

theorem tld_writesTile (v : Vector Byte 32) (s : State) : WritesTile (.tld (some v.toList)) s v :=
  writesTile_of_exec (by simp only [exec, execTld, withPayload_some, exactly_toList])

theorem tpk_writesTile (px : Vector Byte 64) (s : State) :
    WritesTile (.tpk (some px.toList)) s (tilePack s.params.pixOvf px) :=
  writesTile_of_exec (by simp only [exec, execTpk, withPayload_some, exactly_toList])

theorem tclr_writesTile (s : State) : WritesTile .tclr s blankTile := writesTile_of_exec rfl

theorem tunpk_answers (s : State) : Answers .tunpk s (tileUnpack s.tile).toList :=
  answers_of_exec (exec_tunpk s) (by simp)

theorem tst_answers (s : State) : Answers .tst s s.tile.toList := answers_of_exec (exec_tst s) (by simp)

theorem exec_tld_none (s : State) : exec (.tld none) s = raiseFault .nullInput s := rfl

theorem exec_tld_length {bytes : List Byte} (h : bytes.length ≠ 32) (s : State) :
    exec (.tld (some bytes)) s = raiseFault .length s := by
  simp only [exec, execTld, withPayload_some, exactly_eq_none.2 h]

theorem exec_tpk_none (s : State) : exec (.tpk none) s = raiseFault .nullInput s := rfl

theorem exec_tpk_length {bytes : List Byte} (h : bytes.length ≠ 64) (s : State) :
    exec (.tpk (some bytes)) s = raiseFault .length s := by
  simp only [exec, execTpk, withPayload_some, exactly_eq_none.2 h]

/-! ## The five commands (R124 to R128) -/

/-- Settles O28, by the payload: 32 bytes, absent, or another length. -/
theorem tldCopiesThirtyTwoBytes : Obligations.TldCopiesThirtyTwoBytes := by
  unfold Obligations.TldCopiesThirtyTwoBytes
  intro s
  refine ⟨encode_tld, fun bytes h => ?full, ?absent, fun bytes h => ?length⟩
  case full =>
    obtain ⟨v, rfl⟩ := exists_toList_eq h
    obtain ⟨t, hexec, htile, honly, hok⟩ := tld_writesTile v s
    exact ⟨t, hexec, congrArg Vector.toList htile, honly, hok⟩
  case absent => exact exec_tld_none s ▸ faultsAs_raiseFault .nullInput s
  case length => exact exec_tld_length h s ▸ faultsAs_raiseFault .length s

/-- Settles O29, by the payload: 64 bytes, absent, or another length. -/
theorem tpkPacksPixels : Obligations.TpkPacksPixels := by
  unfold Obligations.TpkPacksPixels
  intro s
  refine ⟨encode_tpk, fun bytes h => ?full, ?absent, fun bytes h => ?length⟩
  case full =>
    obtain ⟨px, rfl⟩ := exists_toList_eq h
    obtain ⟨t, hexec, htile, honly, hok⟩ := tpk_writesTile px s
    refine ⟨t, hexec, fun k hk => ?_, honly, hok⟩
    simp only [htile, Vector.getElem_toList]
    exact tilePack_toNat _ px hk
  case absent => exact exec_tpk_none s ▸ faultsAs_raiseFault .nullInput s
  case length => exact exec_tpk_length h s ▸ faultsAs_raiseFault .length s

/-- Settles O30: the answer is the unpacked tile, read pair by pair. -/
theorem tunpkAnswersPixels : Obligations.TunpkAnswersPixels := by
  unfold Obligations.TunpkAnswersPixels
  intro s
  obtain ⟨t, hexec, hans, honly⟩ := tunpk_answers s
  exact ⟨encode_tunpk, t, _, hexec, hans, by simp, fun k hk => tileUnpack_toList_pair s.tile hk, honly⟩

/-- Settles O31: TST reads TILE and checks nothing. -/
theorem tstAnswersPackedTile : Obligations.TstAnswersPackedTile := fun s => ⟨encode_tst, tst_answers s⟩

/-- Settles O32: TCLR writes the constant that reset leaves in TILE. -/
theorem tclrBlanksTile : Obligations.TclrBlanksTile := by
  unfold Obligations.TclrBlanksTile
  intro s
  obtain ⟨t, hexec, htile, honly, hok⟩ := tclr_writesTile s
  refine ⟨encode_tclr, t, hexec, fun k hk => ?_, htile, honly, hok⟩
  simp only [htile]
  exact blankTile_getElem hk

/-! ## The family together (R130) -/

/-- Settles O33: TST and TUNPK answer from the tile just written, and packing undoes unpacking. -/
theorem tileFamilyRoundTrips : Obligations.TileFamilyRoundTrips := by
  unfold Obligations.TileFamilyRoundTrips
  refine ⟨fun s w hw => ?packed, fun s w hw => ?repacked, fun s px hpx => ?pixels⟩
  case packed =>
    obtain ⟨v, rfl⟩ := exists_toList_eq hw
    obtain ⟨t, ht, rfl, -⟩ := tld_writesTile v s
    obtain ⟨u, hu, hans, -⟩ := tst_answers t
    exact ⟨t, u, ht, hu, hans⟩
  case repacked =>
    obtain ⟨v, rfl⟩ := exists_toList_eq hw
    obtain ⟨t, ht, rfl, -⟩ := tld_writesTile v s
    obtain ⟨u, hu, hpx, -⟩ := tunpk_answers t
    obtain ⟨r, hr, htile, -⟩ := tpk_writesTile (tileUnpack t.tile) u
    obtain ⟨x, hx, hans, -⟩ := tst_answers r
    rw [htile, tilePack_tileUnpack] at hans
    exact ⟨t, u, _, r, x, ht, hu, hpx, hr, hx, hans⟩
  case pixels =>
    obtain ⟨px, rfl⟩ := exists_toList_eq hpx
    obtain ⟨t, ht, htile, -⟩ := tpk_writesTile px s
    obtain ⟨u, hu, hans, -⟩ := tunpk_answers t
    rw [htile] at hans
    refine ⟨t, u, _, ht, hu, hans, map_toNat_tileUnpack_tilePack _ px, fun hmax => ?_⟩
    exact congrArg Vector.toList ((tileUnpack_tilePack_eq_self_iff _ px).2 fun k hk => hmax _ (by simp))

/-! ## Two commands in a row (R129, 60_exceptions.md R166) -/

theorem execAll_singleton (i : Instr) (s : State) : execAll [i] s = exec i s := by
  obtain ⟨t, ht⟩ := (exec_ends i s).exists_next
  rw [execAll_cons_of_next ht, ht, execAll]

theorem execAll_pair (hi : exec i s = .next t) (hj : exec j t = .next u) : execAll [i, j] s = .next u := by
  rw [execAll_cons_of_next hi, execAll_singleton, hj]

/-- A first response without result bytes, then an OK one. -/
theorem answersTwo_of_respondsOk {r : Response} (hout : t.outbox = s.outbox ++ [r]) (hst : wordStatus r.word = st)
    (hca : wordCause r.word = ca) (hrlen : wordRlen r.word = 0) (hres : r.res = []) (hok : respondsOk res t u) :
    answersTwo st ca res s u := by
  obtain ⟨q, hq, hword⟩ := hok
  exact ⟨r, q, by rw [hq, hout, List.append_assoc, List.singleton_append], hst, hca, hrlen, hres, hword⟩

theorem onlyTile_trans_onlyResponds (h : onlyTile s t) (h' : onlyResponds t u) : onlyTile s u := by
  obtain ⟨hcol, hpal, hmap, hstat, hparams, hinbox⟩ := h
  obtain ⟨⟨hcol', hpal', -, hmap'⟩, hstat', hparams', hinbox'⟩ := h'
  exact ⟨hcol'.trans hcol, hpal'.trans hpal, hmap'.trans hmap, hstat'.trans hstat, hparams'.trans hparams,
    hinbox'.trans hinbox⟩

theorem faultRecorded_trans_onlyResponds (h : faultRecorded st ca s t) (h' : onlyResponds t u) :
    faultRecorded st ca s u := by
  obtain ⟨⟨hcol, hpal, htile, hmap⟩, hparams, hinbox, hrecord⟩ := h
  obtain ⟨⟨hcol', hpal', htile', hmap'⟩, hstat', hparams', hinbox'⟩ := h'
  exact ⟨⟨hcol'.trans hcol, hpal'.trans hpal, htile'.trans htile, hmap'.trans hmap⟩, hparams'.trans hparams,
    hinbox'.trans hinbox, hstat'.symm ▸ hrecord⟩

theorem tile_eq_of_onlyResponds (h : onlyResponds s t) : t.tile = s.tile := by
  obtain ⟨⟨-, -, htile, -⟩, -⟩ := h
  exact htile

theorem tile_eq_of_faultRecorded (h : faultRecorded st ca s t) : t.tile = s.tile := by
  obtain ⟨⟨-, -, htile, -⟩, -⟩ := h
  exact htile

/-- A command that writes TILE, then one that answers from TILE. -/
theorem execAll_writesTile_answers {v : Vector Byte 32} (hi : WritesTile i s v)
    (hj : ∀ t, t.tile = v → Answers j t res) :
    ∃ u, execAll [i, j] s = .next u ∧ u.tile = v ∧ onlyTile s u ∧ answersTwo 0x00 0x00 res s u := by
  obtain ⟨t, ht, htile, honly, r, hout, hst, hca, hrlen, hres⟩ := hi
  obtain ⟨u, hu, hok, hresp⟩ := hj t htile
  exact ⟨u, execAll_pair ht hu, (tile_eq_of_onlyResponds hresp).trans htile, onlyTile_trans_onlyResponds honly hresp,
    answersTwo_of_respondsOk hout hst hca (BitVec.eq_of_toNat_eq hrlen) hres hok⟩

/-- A command that faults, then one that answers from TILE: it finds the tile as it was (R166). -/
theorem execAll_faultsAs_answers (hi : faultsAs st ca s (exec i s)) (hj : ∀ t, t.tile = s.tile → Answers j t res) :
    ∃ u, execAll [i, j] s = .next u ∧ faultRecorded st ca s u ∧ answersTwo st ca res s u := by
  obtain ⟨t, ht, hfault, r, hout, hst, hca, hrlen, hres⟩ := hi
  obtain ⟨u, hu, hok, hresp⟩ := hj t (tile_eq_of_faultRecorded hfault)
  exact ⟨u, execAll_pair ht hu, faultRecorded_trans_onlyResponds hfault hresp,
    answersTwo_of_respondsOk hout hst hca hrlen hres hok⟩

/-- The two faults of a command that takes exactly `n` bytes, as one (60_exceptions.md R161). -/
theorem faultsAs_of_payload {mk : Payload → Instr} {n : Nat} {pay : Payload}
    (habsent : faultsAs 0x01 0x01 s (exec (mk none) s))
    (hlength : ∀ w : List Byte, w.length ≠ n → faultsAs 0x01 0x02 s (exec (mk (some w)) s))
    (hpay : (pay = none ∧ ca = 0x01) ∨ (∃ w, pay = some w ∧ w.length ≠ n ∧ ca = 0x02)) :
    faultsAs 0x01 ca s (exec (mk pay) s) := by
  obtain ⟨rfl, rfl⟩ | ⟨w, rfl, hw, rfl⟩ := hpay
  · exact habsent
  · exact hlength w hw

/-- Settles O34: the second command answers from the tile the first one wrote, or, where that faulted, from the tile as
it was. -/
theorem pseudoInstructionsDecodeAndEncodeTiles : Obligations.PseudoInstructionsDecodeAndEncodeTiles := by
  unfold Obligations.PseudoInstructionsDecodeAndEncodeTiles
  have hunpk : ∀ {v : Vector Byte 32} (t : State), t.tile = v → Answers .tunpk t (tileUnpack v).toList :=
    fun t ht => ht ▸ tunpk_answers t
  have htst : ∀ {v : Vector Byte 32} (t : State), t.tile = v → Answers .tst t v.toList :=
    fun t ht => ht ▸ tst_answers t
  refine ⟨fun s w hw => ?tdec, fun s px => ?tenc, fun s pay ca hpay => ?tdecFault, fun s pay ca hpay => ?tencFault,
    fun s pay => execAll_singleton (.tld pay) s⟩
  case tdec =>
    obtain ⟨v, rfl⟩ := exists_toList_eq hw
    obtain ⟨u, hu, htile, honly, htwo⟩ := execAll_writesTile_answers (tld_writesTile v s) hunpk
    exact ⟨u, _, hu, congrArg Vector.toList htile, honly, htwo, by simp, fun k hk => tileUnpack_toList_pair v hk⟩
  case tenc => exact execAll_writesTile_answers (tpk_writesTile px s) htst
  case tdecFault =>
    obtain ⟨-, -, habsent, hlength⟩ := tldCopiesThirtyTwoBytes s
    exact execAll_faultsAs_answers (faultsAs_of_payload habsent hlength hpay) hunpk
  case tencFault =>
    obtain ⟨-, -, habsent, hlength⟩ := tpkPacksPixels s
    exact execAll_faultsAs_answers (faultsAs_of_payload habsent hlength hpay) htst

end Sys2Proof.Machine
end

section
/-! PROOFS. The mapping family (spec 43_mapping.md): the packets, the codec by way of the 16 bits of an entry, and the
three commands, each by what it does where it succeeds and the fault it ends in elsewhere. -/

namespace Sys2Proof

open Sys2Proof.Safety

/-! ## Packets (30_encoding.md R62) -/

theorem encode_mdec (off : BitVec 16) (pay : Payload) :
    encode (.mdec off pay) = packetOf 0x40 pay [0, 0, off.extractLsb' 8 8, off.extractLsb' 0 8] := by
  rw [← argBytes_argOfHalf]
  exact encode_of_payHeader rfl

theorem encode_menc : encode .menc = packetOf 0x41 none [0, 0, 0, 0] :=
  encode_of_plainHeader (i := .menc) rfl rfl

theorem encode_mmk (t : BitVec 16) (p : Byte) (vf hf pri : BitVec 1) :
    encode (.mmk t p vf hf pri) =
      packetOf 0x42 none [0#5 ++ pri ++ hf ++ vf, p, t.extractLsb' 8 8, t.extractLsb' 0 8] := by
  rw [← argBytes_argOfMap]
  exact encode_of_plainHeader rfl rfl

end Sys2Proof

namespace Sys2Proof.Machine

open Sys2Proof.Safety

variable {i : Instr} {s : State} {e e' : MapEntry} {bytes : List Byte}

/-! ## The entry as 16 bits (R140, R141) -/

theorem bitVec_append_inj {m n : Nat} {a c : BitVec m} {b d : BitVec n} (h : a ++ b = c ++ d) : a = c ∧ b = d := by
  have hleft := congrArg (BitVec.extractLsb' n m) h
  have hright := congrArg (BitVec.setWidth n) h
  rw [BitVec.extractLsb'_append_eq_left, BitVec.extractLsb'_append_eq_left] at hleft
  rw [BitVec.setWidth_append_eq_right, BitVec.setWidth_append_eq_right] at hright
  exact ⟨hleft, hright⟩

/-- An entry is its 16 bits. -/
theorem entryWord_injective (h : entryWord e = entryWord e') : e = e' := by
  obtain ⟨hflags, htile⟩ := bitVec_append_inj h
  obtain ⟨hflags, hhf⟩ := bitVec_append_inj hflags
  obtain ⟨hflags, hvf⟩ := bitVec_append_inj hflags
  obtain ⟨hpri, hpal⟩ := bitVec_append_inj hflags
  cases e
  cases e'
  rw [MapEntry.mk.injEq]
  exact ⟨htile, hpal, hvf, hhf, hpri⟩

theorem shift_or_fields_eq_append : ∀ (pri : BitVec 1) (pal : BitVec 2) (vf hf : BitVec 1) (hi : BitVec 3),
    (pri.setWidth 8 <<< 7) ||| (pal.setWidth 8 <<< 5) ||| (vf.setWidth 8 <<< 4) ||| (hf.setWidth 8 <<< 3)
      ||| hi.setWidth 8 = (pri ++ pal ++ vf ++ hf ++ hi : BitVec 8) := by decide

/-- The encoder's byte 0 is `P CC V H` and the tile's top three bits (R141). -/
theorem mapenc_fst (e : MapEntry) :
    (mapenc e).1 = (e.pri ++ e.pal ++ e.vf ++ e.hf ++ e.tile.extractLsb' 8 3 : BitVec 8) :=
  shift_or_fields_eq_append ..

theorem mapenc_snd (e : MapEntry) : (mapenc e).2 = e.tile.extractLsb' 0 8 :=
  BitVec.setWidth_eq_extractLsb' (show 8 ≤ 11 by decide)

/-- The encoder's two bytes are the entry's 16 bits, high byte first. -/
theorem mapenc_append (e : MapEntry) : (mapenc e).1 ++ (mapenc e).2 = entryWord e := by
  have htile : e.tile.extractLsb' 8 3 ++ e.tile.extractLsb' 0 8 = e.tile := BitVec.extractLsb'_append_extractLsb'
  rw [mapenc_fst, mapenc_snd, entryWord]
  conv_rhs => rw [← htile]
  exact BitVec.append_assoc

theorem append_extractLsb'_fields : ∀ b : Byte,
    b.extractLsb' 7 1 ++ b.extractLsb' 5 2 ++ b.extractLsb' 4 1 ++ b.extractLsb' 3 1 ++ b.extractLsb' 0 3 = b := by
  decide

theorem mapdec_tile (byte0 byte1 : Byte) : (mapdec byte0 byte1).tile = byte0.extractLsb' 0 3 ++ byte1 := by
  have hmask : ∀ b : Byte, (b &&& 0x07).setWidth 11 = (b.extractLsb' 0 3).setWidth 11 := by decide
  calc (mapdec byte0 byte1).tile
      = (byte0.extractLsb' 0 3).setWidth 11 <<< 8 ||| byte1.setWidth 11 := by rw [← hmask]; rfl
    _ = (byte0.extractLsb' 0 3 ++ byte1).setWidth 11 := BitVec.setWidth_append_eq_shiftLeft_setWidth_or.symm
    _ = byte0.extractLsb' 0 3 ++ byte1 := BitVec.setWidth_eq _

/-- The decoder reads the fields off the 16 bits of its two bytes. -/
theorem entryWord_mapdec (byte0 byte1 : Byte) : entryWord (mapdec byte0 byte1) = byte0 ++ byte1 := by
  rw [entryWord, mapdec_tile]
  conv_rhs => rw [← append_extractLsb'_fields byte0]
  symm
  exact BitVec.append_assoc

/-! ## The codec (R143) -/

theorem mapdec_mapenc (e : MapEntry) : mapdec (mapenc e).1 (mapenc e).2 = e :=
  entryWord_injective (by rw [entryWord_mapdec, mapenc_append])

theorem mapenc_mapdec (byte0 byte1 : Byte) : mapenc (mapdec byte0 byte1) = (byte0, byte1) :=
  Prod.ext_iff.2 (bitVec_append_inj (by rw [mapenc_append, entryWord_mapdec]))

theorem mapBytes_mapdec (byte0 byte1 : Byte) : mapBytes (mapdec byte0 byte1) = [byte0, byte1] := by
  rw [mapBytes, mapenc_mapdec]

/-- Two entries' first bytes differ field by field: OR carries nothing from one field into another. -/
theorem mapenc_fst_xor (e e' : MapEntry) :
    (mapenc e).1 ^^^ (mapenc e').1 =
      ((e.pri ^^^ e'.pri) ++ (e.pal ^^^ e'.pal) ++ (e.vf ^^^ e'.vf) ++ (e.hf ^^^ e'.hf) ++
        (e.tile.extractLsb' 8 3 ^^^ e'.tile.extractLsb' 8 3) : BitVec 8) := by
  rw [mapenc_fst, mapenc_fst]
  exact BitVec.xor_append.trans (by simp only [BitVec.xor_append])

/-- Which bits of byte 0 a difference in one field can reach. -/
theorem field_difference_masked : (∀ d : BitVec 1, (d ++ 0#2 ++ 0#1 ++ 0#1 ++ 0#3) &&& 0x7F#8 = 0) ∧
    (∀ d : BitVec 2, (0#1 ++ d ++ 0#1 ++ 0#1 ++ 0#3) &&& 0x9F#8 = 0) ∧
    (∀ d : BitVec 1, (0#1 ++ 0#2 ++ d ++ 0#1 ++ 0#3) &&& 0xEF#8 = 0) ∧
    (∀ d : BitVec 1, (0#1 ++ 0#2 ++ 0#1 ++ d ++ 0#3) &&& 0xF7#8 = 0) ∧
    (∀ d : BitVec 3, (0#1 ++ 0#2 ++ 0#1 ++ 0#1 ++ d) &&& 0xF8#8 = 0) := by decide

/-- Settles O35: both directions go through the 16 bits, and a changed field is the only one whose difference is not
zero. -/
theorem mappingCodecBijectionAndIsolation : Obligations.MappingCodecBijectionAndIsolation := by
  unfold Obligations.MappingCodecBijectionAndIsolation
  obtain ⟨hpri, hpal, hvf, hhf, htile⟩ := field_difference_masked
  refine ⟨mapdec_mapenc, mapenc_mapdec, fun e tile pal vf hf pri => ?_⟩
  simp only [mapenc_fst_xor, BitVec.xor_self]
  exact ⟨⟨hpri _, rfl⟩, ⟨hpal _, rfl⟩, ⟨hvf _, rfl⟩, ⟨hhf _, rfl⟩, htile _⟩

/-! ## How the commands end -/

/-- The command completes, leaves this entry in MAP and nothing else changed, and answers OK without result bytes. -/
def WritesMap (i : Instr) (s : State) (e : MapEntry) : Prop :=
  ∃ t, exec i s = .next t ∧ t.mapE = some e ∧ onlyMap s t ∧ respondsOk [] s t

theorem writesMap_of_exec (h : exec i s = respond [] (writeMap e s)) : WritesMap i s e :=
  ⟨_, h, rfl, ⟨rfl, rfl, rfl, rfl, rfl, rfl⟩, respondsOk_issue (by decide) (writeMap e s)⟩

theorem mdec_writesMap {off : BitVec 16} (h : off.toNat + 1 < bytes.length) (s : State) :
    WritesMap (.mdec off (some bytes)) s (mapdec bytes[off.toNat] bytes[off.toNat + 1]) := by
  have hpair : pairAt bytes off.toNat = some (bytes[off.toNat], bytes[off.toNat + 1]) :=
    pairAt_eq_some.2 ⟨List.getElem?_eq_getElem _, List.getElem?_eq_getElem _⟩
  exact writesMap_of_exec (by simp only [exec, execMdec, withPayload_some, hpair])

theorem exec_mdec_none (off : BitVec 16) (s : State) : exec (.mdec off none) s = raiseFault .nullInput s := rfl

theorem exec_mdec_range {off : BitVec 16} (h : bytes.length ≤ off.toNat + 1) (s : State) :
    exec (.mdec off (some bytes)) s = raiseFault .range s := by
  simp only [exec, execMdec, withPayload_some, pairAt_eq_none.2 h]

theorem menc_answers (h : s.mapE = some e) : Answers .menc s (mapBytes e) :=
  answers_of_exec (by simp only [exec, execMenc, h]) (by simp [mapBytes])

theorem exec_menc_empty (h : s.mapE = none) : exec .menc s = raiseFault .nullObject s := by
  simp only [exec, execMenc, h]

/-- Where `mapnorm` does not fault it keeps the low bits, over-wide or not (R142). -/
theorem mapnorm_of_truncate_or_fits {ovf : MapOvf} {t : BitVec 16} {p : Byte}
    (h : ovf = .truncate ∨ t.toNat ≤ 2047 ∧ p.toNat ≤ 3) : mapnorm ovf t p = some (t.setWidth 11, p.setWidth 2) := by
  unfold mapnorm
  split
  · rfl
  · next hwide =>
    obtain rfl : ovf = .truncate := h.resolve_right hwide
    have hlow : (0x7FF#16).setWidth 11 = BitVec.allOnes 11 ∧ (0x03#8).setWidth 2 = BitVec.allOnes 2 := by decide
    simp only [BitVec.setWidth_and, hlow, BitVec.and_allOnes]

theorem mapnorm_fault_of_wide {t : BitVec 16} {p : Byte} (h : t.toNat > 2047 ∨ p.toNat > 3) :
    mapnorm .fault t p = none := by
  have hwide : ¬ (t ≤ 2047#16 ∧ p ≤ 3#8) := fun ⟨ht, hp⟩ => by
    have ht : t.toNat ≤ 2047 := ht
    have hp : p.toNat ≤ 3 := hp
    omega
  rw [mapnorm, if_neg hwide]

theorem mmk_writesMap {t : BitVec 16} {p : Byte} (h : s.params.mapOvf = .truncate ∨ t.toNat ≤ 2047 ∧ p.toNat ≤ 3)
    (vf hf pri : BitVec 1) : WritesMap (.mmk t p vf hf pri) s ⟨t.setWidth 11, p.setWidth 2, vf, hf, pri⟩ :=
  writesMap_of_exec (by simp only [exec, execMmk, mapnorm_of_truncate_or_fits h])

theorem exec_mmk_overflow {t : BitVec 16} {p : Byte} (hovf : s.params.mapOvf = .fault)
    (h : t.toNat > 2047 ∨ p.toNat > 3) (vf hf pri : BitVec 1) :
    exec (.mmk t p vf hf pri) s = raiseFault .overflow s := by
  simp only [exec, execMmk, hovf, mapnorm_fault_of_wide h]

/-! ## The three commands (R144 to R146) -/

/-- Settles O36, by the payload: both bytes inside it, absent, or a byte beyond it. -/
theorem mdecDecodesEntryAtOffset : Obligations.MdecDecodesEntryAtOffset := by
  unfold Obligations.MdecDecodesEntryAtOffset
  intro s off
  refine ⟨encode_mdec off, fun bytes h => ?inside, ?absent, fun bytes h => ?beyond⟩
  case inside =>
    obtain ⟨t, hexec, hmap, honly, hok⟩ := mdec_writesMap h s
    exact ⟨t, _, hexec, hmap, entryWord_mapdec .., honly, hok⟩
  case absent => exact exec_mdec_none off s ▸ faultsAs_raiseFault .nullInput s
  case beyond => exact exec_mdec_range h s ▸ faultsAs_raiseFault .range s

/-- Settles O37, by what MAP holds. -/
theorem mencAnswersEntry : Obligations.MencAnswersEntry := by
  unfold Obligations.MencAnswersEntry
  intro s
  refine ⟨encode_menc, fun e he => ?held, fun hnone => ?empty⟩
  case held =>
    obtain ⟨t, hexec, hans, honly⟩ := menc_answers he
    exact ⟨t, _, _, hexec, hans, mapenc_append e, honly⟩
  case empty => exact exec_menc_empty hnone ▸ faultsAs_raiseFault .nullObject s

/-- Settles O38: short of the fault, the entry keeps the low 11 and 2 bits of the operands. -/
theorem mmkConstructsEntry : Obligations.MmkConstructsEntry := by
  unfold Obligations.MmkConstructsEntry
  intro s t p vf hf pri
  refine ⟨encode_mmk t p vf hf pri, fun h => ?kept, fun hovf h => ?overflow⟩
  case kept =>
    obtain ⟨u, hexec, hmap, honly, hok⟩ := mmk_writesMap h vf hf pri
    have htile : (t.setWidth 11).toNat = t.toNat &&& 0x7FF := (Nat.and_two_pow_sub_one_eq_mod t.toNat 11).symm
    have hpal : (p.setWidth 2).toNat = p.toNat &&& 0x03 := (Nat.and_two_pow_sub_one_eq_mod p.toNat 2).symm
    exact ⟨u, _, hexec, hmap, htile, hpal, rfl, rfl, rfl, honly, hok⟩
  case overflow => exact exec_mmk_overflow hovf h vf hf pri ▸ faultsAs_raiseFault .overflow s

/-! ## The family together (R147) -/

theorem mdec_mapBytes_writesMap (e : MapEntry) (s : State) : WritesMap (.mdec 0 (some (mapBytes e))) s e := by
  have h : WritesMap (.mdec 0 (some (mapBytes e))) s (mapdec (mapenc e).1 (mapenc e).2) :=
    mdec_writesMap (off := 0) (show 0 + 1 < (mapBytes e).length by simp [mapBytes]) s
  rwa [mapdec_mapenc] at h

theorem menc_answers_written (h : WritesMap i s e) :
    ∃ t u, exec i s = .next t ∧ t.mapE = some e ∧ exec .menc t = .next u ∧ respondsOk (mapBytes e) t u := by
  obtain ⟨t, ht, hmap, -⟩ := h
  obtain ⟨u, hu, hans, -⟩ := menc_answers hmap
  exact ⟨t, u, ht, hmap, hu, hans⟩

/-- Settles O39: MENC answers the bytes of the entry just written, and decoding an entry's bytes writes that entry. -/
theorem mappingFamilyRoundTrips : Obligations.MappingFamilyRoundTrips := by
  unfold Obligations.MappingFamilyRoundTrips
  have hmade (s : State) (hf : BitVec 1) : WritesMap (.mmk 5 2 1 hf 1) s ⟨5, 2, 1, hf, 1⟩ :=
    mmk_writesMap (.inr (by decide)) 1 hf 1
  have hplain : mapBytes ⟨5, 2, 1, 0, 1⟩ = [0xD0, 0x05] := by decide
  have hflipped : mapBytes ⟨5, 2, 1, 1, 1⟩ = [0xD8, 0x05] := by decide
  refine ⟨fun s => ?plain, fun s => ?flipped, fun s w0 w1 => ?bytes⟩
  case plain =>
    obtain ⟨t, u, ht, hmap, hu, hans⟩ := menc_answers_written (hmade s 0)
    obtain ⟨v, hv, hmap', -⟩ := mdec_mapBytes_writesMap ⟨5, 2, 1, 0, 1⟩ u
    rw [hplain] at hans hv
    exact ⟨t, u, v, ht, hu, hans, hv, hmap'.trans hmap.symm⟩
  case flipped =>
    obtain ⟨t, u, ht, -, hu, hans⟩ := menc_answers_written (hmade s 1)
    exact ⟨t, u, ht, hu, hflipped ▸ hans⟩
  case bytes =>
    obtain ⟨t, u, ht, -, hu, hans⟩ := menc_answers_written (mdec_mapBytes_writesMap (mapdec w0 w1) s)
    rw [mapBytes_mapdec] at ht hans
    exact ⟨t, u, ht, hu, hans⟩

end Sys2Proof.Machine
end

section
/-! PROOFS. The exceptions family (spec 60_exceptions.md): the two kinds of response a command can end with, and the
idle step. -/

namespace Sys2Proof.Machine

open Sys2Proof.Safety

variable {i : Instr} {s : State}

@[simp] theorem wordStatus_okResponse (res : List Byte) : wordStatus (okResponse res).word = 0x00 :=
  wordStatus_responseWord _ _ _

/-- A command's one response is OK with STAT kept, or its end is the fault operation on the state it began in, before
any register was written (60_exceptions.md R165, 10_state.md R28). -/
theorem Ends.okResponse_or_raiseFault {o : Outcome} (h : Ends i s o) :
    (∃ t r, o = .next t ∧ t.outbox = s.outbox ++ [r] ∧ wordStatus r.word = 0x00 ∧ t.stat = s.stat) ∨
      ∃ c, o = raiseFault c s := by
  cases h with
  | fault c => exact .inr ⟨c, rfl⟩
  | _ => exact .inl ⟨_, _, rfl, rfl, wordStatus_okResponse _, rfl⟩

/-- Settles O42: no fault cause has the status of the OK response, so the response tells the two ends apart. -/
theorem everyCommandEndsOkOrFaultsWhole : Obligations.EveryCommandEndsOkOrFaultsWhole := by
  unfold Obligations.EveryCommandEndsOkOrFaultsWhole
  intro i s
  obtain ⟨t, r, ht, hout, hok, hstat⟩ | ⟨c, hc⟩ := (exec_ends i s).okResponse_or_raiseFault
  · exact ⟨t, r, ht, hout, .inl ⟨hok, hstat⟩⟩
  · have hfault : faultsAs (causeStatus c) (causeCode c) s (exec i s) := hc ▸ faultsAs_raiseFault c s
    obtain ⟨t, ht, -, r, hout, hst, hca, -⟩ := id hfault
    rw [← hst, ← hca] at hfault
    exact ⟨t, r, ht, hout, .inr ⟨hst ▸ causeStatus_ne_ok c, hfault⟩⟩

/-- Settles O10: an empty inbox is fetched as idle. -/
theorem idleStepKeepsState : Obligations.IdleStepKeepsState := by
  unfold Obligations.IdleStepKeepsState
  intro s hempty
  simp only [step, hempty, fetch]

end Sys2Proof.Machine
end

section
/-! PROOFS. The reset and hazards family (spec 70_reset_and_hazards.md R180 to R185): the two places a packet can be
cut, the reset input, and the responses of a run. -/

namespace Sys2Proof.Machine

open Sys2Proof.Safety

variable {i : Instr} {s t : State} {bytes : List Byte}

/-! ## A packet cut short (93_implementation_defined.md N2, N4) -/

theorem decode_of_length_lt_eight (h : bytes.length < 8) : decode bytes = .short := by
  unfold decode
  split
  · simp only [List.length_cons] at h
    omega
  · rfl

theorem decode_of_missing_payload {h : BitVec 64} {pay : List Byte} (hlen : pay.length < (lenOf h).toNat) :
    decode (headerBytes h ++ pay) = .short := by
  rw [decode_headerBytes, decodeBody, if_pos hlen]

theorem fetch_of_short (hne : bytes ≠ []) (h : decode bytes = .short) : fetch (sendBytes bytes) = .cutShort := by
  have hfetch := fetch_sendBytes hne []
  rw [List.append_nil] at hfetch
  simp only [hfetch, splitBytes, List.append_nil, fetchPacket, h]

theorem fetch_of_short_reset (hne : bytes ≠ []) (h : decode bytes = .short) (ms : List HostMove) :
    fetch (sendBytes bytes ++ .reset :: ms) = .resetInside := by
  simp only [fetch_sendBytes hne, splitBytes, List.append_nil, fetchPacket, h]

/-- Settles O11: in both cases the bytes decode as fewer than a packet, and what follows them, nothing or a reset,
selects the stop. -/
theorem unfinishedPacketStops : Obligations.UnfinishedPacketStops := by
  unfold Obligations.UnfinishedPacketStops
  intro s bytes hcut
  have hshort : bytes ≠ [] ∧ decode bytes = .short := by
    obtain ⟨hpos, hlt⟩ | ⟨h, pay, rfl, hlen⟩ := hcut
    · exact ⟨List.ne_nil_of_length_pos hpos, decode_of_length_lt_eight hlt⟩
    · exact ⟨List.append_ne_nil_of_left_ne_nil (List.cons_ne_nil _ _) _, decode_of_missing_payload hlen⟩
  obtain ⟨hne, hdec⟩ := hshort
  refine ⟨fun hin => ?_, fun ms hin => ?_⟩
  · simp only [step, hin, fetch_of_short hne hdec]
  · simp only [step, hin, fetch_of_short_reset hne hdec]

/-! ## The reset input (R180) -/

/-- Settles O9: the reset input's fields are those of the reset state, but for the three the host keeps. -/
theorem resetInputRestoresResetValues : Obligations.ResetInputRestoresResetValues := by
  unfold Obligations.ResetInputRestoresResetValues
  intro s ms hin
  exact ⟨_, step_of_reset hin, fun i => readColour_resetInput _ i, rfl, fun _ hk => blankTile_getElem hk, rfl, rfl, rfl,
    rfl, rfl⟩

/-! ## Responses and the fault record (R185) -/

/-- An OK response keeps both FLT and "every response is OK"; a fault sets the one and breaks the other. -/
theorem Ends.clean_iff_allOk (h : Ends i s (.next t)) (hs : clean s ↔ ∀ r ∈ s.outbox, wordStatus r.word = 0x00) :
    clean t ↔ ∀ r ∈ t.outbox, wordStatus r.word = 0x00 := by
  obtain ⟨t', r, ht, hout, hok, hstat⟩ | ⟨c, hc⟩ := h.okResponse_or_raiseFault
  · cases ht
    rw [clean, hstat, hout, List.forall_mem_append, List.forall_mem_singleton]
    exact hs.trans (and_iff_left hok).symm
  · obtain ⟨t', ht, ⟨-, -, -, hflt, -⟩, r, hout, hst, -⟩ := faultsAs_raiseFault c s
    cases hc.trans ht
    have hdirty : ¬ clean t := by simp [hflt]
    have hbad : ¬ ∀ r ∈ t.outbox, wordStatus r.word = 0x00 := by
      intro hall
      exact causeStatus_ne_ok c (hst.symm.trans (hall r (by simp [hout])))
    exact iff_of_false hdirty hbad

/-- Settles O48: an idle step changes neither side, any other ends as a command does. -/
theorem cleanExactlyWhileAllResponsesOk : Obligations.CleanExactlyWhileAllResponsesOk := by
  unfold Obligations.CleanExactlyWhileAllResponsesOk
  intro s t hstep hr hs
  obtain rfl | ⟨ms, i, hends⟩ := step_ends hstep hr
  · exact hs
  · exact hends.clean_iff_allOk hs

/-- Settles O50, by induction on the commands: each ends in a next state with one more response, and the rest run from
there. -/
theorem everyRunEndsWithOneResponsePerCommand : Obligations.EveryRunEndsWithOneResponsePerCommand := by
  unfold Obligations.EveryRunEndsWithOneResponsePerCommand
  intro is
  induction is with
  | nil => exact fun s => ⟨s, [], rfl, (List.append_nil _).symm, rfl⟩
  | cons i is ih =>
    intro s
    obtain ⟨u, hu⟩ := (exec_ends i s).exists_next
    have hends : Ends i s (.next u) := hu ▸ exec_ends i s
    obtain ⟨r, hout, -⟩ := hends.outbox_append
    obtain ⟨t, rs, ht, hrest, hlen⟩ := ih u
    refine ⟨t, r :: rs, (execAll_cons_of_next hu is).trans ht, ?_, congrArg Nat.succ hlen⟩
    rw [hrest, hout, List.append_assoc, List.singleton_append]

end Sys2Proof.Machine
end
